-- ==== Sys2Proof/Word.lean ====
section
/-! DEFINITION. The bit, the bit string and the beat: the block's only data types (R8, R20, R74). -/

namespace Sys2Proof

/-- A bit, 0 or 1 (R8): `false` is 0 and `true` is 1. -/
abbrev Bit := Bool

/-- A bit string of any length, the leading (most significant, first transmitted) bit at the head (R8, R20, R54). -/
abbrev BitStr := List Bit

/-- The value carried by one beat of a frame (R74).
Its width depends on the beat's place in the frame and on `LENW`; a reader of a beat takes its own field of it. -/
abbrev Beat := Nat

/-- `zeros(n)` of R8. -/
def zeros (n : Nat) : BitStr := List.replicate n false

end Sys2Proof
end

