-- ==== Sys2Proof/Syntax.lean ====
section
/-! DEFINITION. Symbols, operations, commands, errors and responses as abstract syntax. -/

namespace Sys2Proof

/-- A symbol of a raw operand (R8, R73): a 0, a 1, or anything else. -/
inductive Sym where
  | b0
  | b1
  | other
  deriving DecidableEq, Repr, Inhabited

/-- A raw operand as the host presents it (R8). -/
abbrev SymStr := List Sym

/-- The four operations (R2). -/
inductive Op where
  | xor
  | div
  | enc
  | ver
  deriving DecidableEq, Repr, Inhabited

/-- The operations that run a division: the values of the register `OPR` (R25). -/
inductive Opr where
  | div
  | enc
  | ver
  deriving DecidableEq, Repr, Inhabited

/-- A command: an operation with its two raw operands `rA` and `rB` (R51, R78). One constructor per row of the opcode table (R82). -/
inductive Instr where
  /-- `XOR "a", "b"` (R101). -/
  | xor (rA rB : SymStr)
  /-- `DIV "dividend", "divisor"` (R113). -/
  | div (rA rB : SymStr)
  /-- `ENC "message", "generator"` (R143). -/
  | enc (rA rB : SymStr)
  /-- `VER "codeword", "generator"` (R163). -/
  | ver (rA rB : SymStr)
  deriving DecidableEq, Repr, Inhabited

/-- The operation of a command. -/
def Instr.op : Instr → Op
  | .xor _ _ => .xor
  | .div _ _ => .div
  | .enc _ _ => .enc
  | .ver _ _ => .ver

/-- The first operand of a command (R51). -/
def Instr.rA : Instr → SymStr
  | .xor a _ => a
  | .div a _ => a
  | .enc a _ => a
  | .ver a _ => a

/-- The second operand of a command (R51). -/
def Instr.rB : Instr → SymStr
  | .xor _ b => b
  | .div _ b => b
  | .enc _ b => b
  | .ver _ b => b

/-- The command `(op, rA, rB)` of R78. -/
def Instr.mk : Op → SymStr → SymStr → Instr
  | .xor, a, b => .xor a b
  | .div, a, b => .div a b
  | .enc, a, b => .enc a b
  | .ver, a, b => .ver a b

/-- The two errors of the block (R180). Neither carries a value. -/
inductive CrcError where
  | invalidGenerator
  | malformedInput
  deriving DecidableEq, Repr, Inhabited

/-- The status of a response (R79). The reserved code 11 has no name because the block never produces it (R83 (d)). -/
inductive Status where
  | ok
  | invalidGenerator
  | malformedInput
  deriving DecidableEq, Repr, Inhabited

/-- A response: status, the validity flag of `VER`, and the result bits, of which `rlen` is the length (R51, R80, R81). -/
structure Response where
  status : Status
  valid : Bool
  payload : BitStr
  deriving DecidableEq, Repr, Inhabited

/-- `respond OK(r)` of R8. -/
def Response.okBits (r : BitStr) : Response := ⟨.ok, false, r⟩

/-- `respond OK(valid = v)` of R8. -/
def Response.okValid (v : Bool) : Response := ⟨.ok, v, []⟩

/-- The status that reports an error (R79). -/
def CrcError.status : CrcError → Status
  | .invalidGenerator => .invalidGenerator
  | .malformedInput => .malformedInput

/-- The whole response of a failed command: the status code alone (R81, R186 (a)). -/
def Response.error (e : CrcError) : Response := ⟨e.status, false, []⟩

end Sys2Proof
end

