-- ==== Sys2Proof/Config.lean ====
section
/-! DEFINITION. The parameters of an instance (R5) and the free values (R39). -/

namespace Sys2Proof

/-- The two open parameters of an instance (R5, 92_eei_decisions.md D2 and D3).
`ALLOW_EMPTY_MESSAGE` is no field: the spec decides it, and the empty message is a legal operand of `ENC` (R146). -/
structure Config where
  /-- `LENW`: the width in bits of each length field of a command frame. -/
  lenw : Nat
  /-- `SYMCHK`: whether the operand port carries the third symbol, `other`. -/
  symchk : Bool
  deriving DecidableEq, Repr, Inhabited

/-- `LMAX = 2^LENW - 1`, the longest operand a frame can carry (R5). -/
def Config.lmax (c : Config) : Nat := 2 ^ c.lenw - 1

/-- `LENW` is a positive integer (R5). -/
abbrev Config.Wf (c : Config) : Prop := 0 < c.lenw

/-- The parameters that the opcode table and the spec's worked encodings use: `LENW = 8`, `SYMCHK = true` (R5, R77).
DESIGN CHOICE (log entry 1): they stand in `State.reset`; statements about every state hold for every value of both. -/
def Config.table : Config := ⟨8, true⟩

/-- `GMIN`, the least legal generator length (R5). -/
def gmin : Nat := 2

/-- FREE VALUE (log entry 3): the contents of `OPR` after the `n`-th RESET step, which R39 leaves unspecified. -/
opaque Config.freeOpr : Nat → Opr

/-- FREE VALUE (log entry 3): the contents of `W` after the `n`-th RESET step, any bit string of any length (R39). -/
opaque Config.freeW : Nat → BitStr

/-- FREE VALUE (log entry 3): the contents of `G` after the `n`-th RESET step (R39). -/
opaque Config.freeG : Nat → BitStr

/-- FREE VALUE (log entry 3): the contents of `MSG` after the `n`-th RESET step (R39). -/
opaque Config.freeMsg : Nat → BitStr

end Sys2Proof
end

