-- ==== Sys2Proof/WellFormed.lean ====
section
/-! DEFINITION. Which commands a frame of an instance can carry (R5, R73, R77, R84). -/

namespace Sys2Proof

/-- A raw operand the port of an instance can carry: at most `LMAX` symbols, and with `SYMCHK = false` bits only (R5, R73). -/
def SymStr.wf (c : Config) (r : SymStr) : Bool :=
  decide (r.length ≤ c.lmax) && (c.symchk || r.all (· != .other))

/-- A command a frame of the instance can carry: both operands are (R84). -/
def Instr.wf (c : Config) (i : Instr) : Bool :=
  SymStr.wf c i.rA && SymStr.wf c i.rB

end Sys2Proof
end

