-- ==== Sys2Proof/Decode.lean ====
section
/-! DEFINITION. The command frame's decoder and, after it, its encoder; the response frame; the text form; the table's words. -/

namespace Sys2Proof

/-! ## Symbols and operation codes -/

/-- The symbol a payload beat carries (R73): the 2-bit code, whose upper bit marks "not a bit"; with `SYMCHK = false` the one bit. -/
def symOfBeat (c : Config) (v : Nat) : Sym :=
  match c.symchk with
  | true => if v / 2 % 2 = 1 then .other else if v % 2 = 1 then .b1 else .b0
  | false => if v % 2 = 1 then .b1 else .b0

/-- The operation of the 2-bit code `op` (R76). -/
def Op.ofCode (n : Nat) : Op :=
  match n % 4 with
  | 0 => .xor
  | 1 => .div
  | 2 => .enc
  | _ => .ver

/-! ## The command decoder -/

/-- The field `op`, bits `H[1:0]` of a command header (R77). -/
def headerOp (h : Nat) : Op := Op.ofCode h

/-- The field `lenA`, bits `H[LENW+1 : 2]` of a command header (R77). -/
def headerLenA (c : Config) (h : Nat) : Nat := h / 4 % 2 ^ c.lenw

/-- The field `lenB`, bits `H[2*LENW+1 : LENW+2]` of a command header (R77). -/
def headerLenB (c : Config) (h : Nat) : Nat := h / 2 ^ (c.lenw + 2) % 2 ^ c.lenw

/-- What the decoder reads at the front of the beats presented.
No command encoding is illegal (R83 (a)), so the two refusals name what is still missing (R84, R225). -/
inductive Decoded where
  /-- A whole command frame, and the beats after it. -/
  | command (i : Instr) (rest : List Beat)
  /-- Refused: no header beat has arrived. -/
  | awaitHeader
  /-- Refused: the header announces `missing` more payload beats than have arrived. -/
  | awaitBeats (missing : Nat)
  deriving DecidableEq, Repr

/-- The decoder of R75 and R78: read beat 0, extract the length fields, take exactly that many payload beats. -/
def decodeCmd (c : Config) : List Beat → Decoded
  | [] => .awaitHeader
  | h :: body =>
    let a := headerLenA c h
    let b := headerLenB c h
    if a + b ≤ body.length then
      .command
        (Instr.mk (headerOp h) ((body.take a).map (symOfBeat c)) (((body.drop a).take b).map (symOfBeat c)))
        (body.drop (a + b))
    else
      .awaitBeats (a + b - body.length)

/-- The complete frames at the front of `beats`, without the frame at the end that is only partly there (R220).
`fuel` bounds the number of frames; a frame has at least one beat, so `beats.length` is enough. -/
def wholeFramesFuel (c : Config) : Nat → List Beat → List Beat
  | 0, _ => []
  | fuel + 1, beats =>
    match decodeCmd c beats with
    | .command _ rest => beats.take (beats.length - rest.length) ++ wholeFramesFuel c fuel rest
    | .awaitHeader => []
    | .awaitBeats _ => []

/-- The complete frames at the front of `beats` (R220). -/
def wholeFrames (c : Config) (beats : List Beat) : List Beat :=
  wholeFramesFuel c beats.length beats

/-! ## The command encoder -/

/-- The 2-bit operation code (R76). -/
def Op.code : Op → Nat
  | .xor => 0
  | .div => 1
  | .enc => 2
  | .ver => 3

/-- The 2-bit symbol code, with `other` emitted as `10` (R73, R83 (e)). -/
def Sym.code : Sym → Nat
  | .b0 => 0
  | .b1 => 1
  | .other => 2

/-- The command header as a number, `H = op + 4 * lenA + 2^(LENW+2) * lenB` (R77). -/
def encodeHeader (c : Config) (i : Instr) : Nat :=
  i.op.code + 4 * i.rA.length + 2 ^ (c.lenw + 2) * i.rB.length

/-- `encodeCmd(op, rA, rB)` of R84: the frame of R77 and R78. -/
def encodeCmd (c : Config) (i : Instr) : List Beat :=
  encodeHeader c i :: (i.rA.map Sym.code ++ i.rB.map Sym.code)

/-- One row of the opcode map (R82): a header `H` belongs to the row iff `H AND mask = value`. -/
structure OpcodeRow where
  op : Op
  value : Nat
  mask : Nat
  deriving DecidableEq, Repr

/-- The complete opcode map (R82). -/
def opcodeMap : List OpcodeRow :=
  [⟨.xor, 0x0, 0x3⟩, ⟨.div, 0x1, 0x3⟩, ⟨.enc, 0x2, 0x3⟩, ⟨.ver, 0x3, 0x3⟩]

/-! ## The response frame -/

/-- The 2-bit status code (R79). -/
def Status.code : Status → Nat
  | .ok => 0
  | .invalidGenerator => 1
  | .malformedInput => 2

/-- The field `rlen`: the number of result bits in the payload (R80). -/
def Response.rlen (r : Response) : Nat := r.payload.length

/-- The response header as a number, `RH = status + 4 * valid + 8 * rlen` (R80). -/
def encodeRspHeader (r : Response) : Nat :=
  r.status.code + 4 * r.valid.toNat + 8 * r.rlen

/-- The response frame: the header, then one result bit per beat, leading bit first (R74, R81). -/
def encodeRsp (r : Response) : List Beat :=
  encodeRspHeader r :: r.payload.map Bool.toNat

/-- What a host reads at the front of the beats it has received. -/
inductive RspDecoded where
  /-- A whole response frame, and the beats after it. -/
  | response (r : Response) (rest : List Beat)
  /-- Refused: the reserved status 11, which the block never produces and a host must not treat as OK (R83 (d)). -/
  | reservedStatus
  /-- Refused: no header beat has arrived. -/
  | awaitHeader
  /-- Refused: the header announces `missing` more payload beats than have arrived. -/
  | awaitBeats (missing : Nat)
  deriving DecidableEq, Repr

/-- The status of a 2-bit code; `11` is reserved (R79). -/
def Status.ofCode (n : Nat) : Option Status :=
  match n % 4 with
  | 0 => some .ok
  | 1 => some .invalidGenerator
  | 2 => some .malformedInput
  | _ => none

/-- The field `rlen`, bits `RH[LENW+3 : 3]` of a response header (R80). -/
def rspHeaderRlen (c : Config) (h : Nat) : Nat := h / 8 % 2 ^ (c.lenw + 1)

/-- The field `valid`, bit `RH[2]` of a response header (R80). -/
def rspHeaderValid (h : Nat) : Bool := decide (h / 4 % 2 = 1)

/-- The bit a payload beat of a response carries (R74). -/
def bitOfBeat (v : Nat) : Bit := decide (v % 2 = 1)

/-- The host's reading of a response frame (R75, R79 to R81). -/
def decodeRsp (c : Config) : List Beat → RspDecoded
  | [] => .awaitHeader
  | h :: body =>
    match Status.ofCode h with
    | none => .reservedStatus
    | some st =>
      let n := rspHeaderRlen c h
      if n ≤ body.length then
        .response ⟨st, rspHeaderValid h, (body.take n).map bitOfBeat⟩ (body.drop n)
      else
        .awaitBeats (n - body.length)

/-! ## Packing into a vector (R55) -/

/-- The unsigned value of a bit string read as a binary number, so that bit `n-1-i` of it is position `i` (R55). -/
def BitStr.toNat (s : BitStr) : Nat := s.foldl (fun acc b => 2 * acc + b.toNat) 0

/-- The bit string of length `n` that the vector `v` packs: position `i` is bit `n-1-i` of `v` (R55). -/
def BitStr.ofNat (n v : Nat) : BitStr :=
  (List.range n).map fun i => v.testBit (n - 1 - i)

/-! ## The textual form (R70, R71) -/

/-- The quotation mark. -/
def quoteChar : Char := Char.ofNat 34

/-- The symbol a host maps a character to, whatever its character set (R73). -/
def Sym.ofChar (ch : Char) : Sym :=
  if ch = '0' then .b0 else if ch = '1' then .b1 else .other

/-- One character per symbol (R71). DESIGN CHOICE (log entry 18): `other` is written `x`, as 95_test_vectors.md writes it. -/
def Sym.toChar : Sym → Char
  | .b0 => '0'
  | .b1 => '1'
  | .other => 'x'

/-- The mnemonic (R2). -/
def Op.mnemonic : Op → List Char
  | .xor => ['X', 'O', 'R']
  | .div => ['D', 'I', 'V']
  | .enc => ['E', 'N', 'C']
  | .ver => ['V', 'E', 'R']

/-- A raw operand between quotation marks (R71). -/
def SymStr.text (r : SymStr) : List Char := quoteChar :: (r.map Sym.toChar ++ [quoteChar])

/-- The spec mnemonic form of a command, for example `ENC "101", "0110"` (R70). -/
def Instr.text (i : Instr) : List Char :=
  i.op.mnemonic ++ [' '] ++ SymStr.text i.rA ++ [',', ' '] ++ SymStr.text i.rB

/-- The operation a mnemonic names (R2). -/
def Op.ofMnemonic (cs : List Char) : Option Op :=
  if cs = Op.mnemonic .xor then some .xor
  else if cs = Op.mnemonic .div then some .div
  else if cs = Op.mnemonic .enc then some .enc
  else if cs = Op.mnemonic .ver then some .ver
  else none

/-- The symbols up to the closing quotation mark, and the characters after it (R71). -/
def untilQuote : List Char → Option (SymStr × List Char)
  | [] => none
  | ch :: cs =>
    if ch = quoteChar then some ([], cs)
    else (untilQuote cs).map fun p => (Sym.ofChar ch :: p.1, p.2)

/-- A raw operand in quotation marks at the front of the characters (R71). -/
def SymStr.ofText : List Char → Option (SymStr × List Char)
  | [] => none
  | ch :: cs => if ch = quoteChar then untilQuote cs else none

/-- The command a line in the spec mnemonic form writes (R70). -/
def Instr.ofText (cs : List Char) : Option Instr := do
  let op ← Op.ofMnemonic (cs.take 3)
  let rest ← match cs.drop 3 with
    | ' ' :: r => some r
    | _ => none
  let (a, rest) ← SymStr.ofText rest
  let rest ← match rest with
    | ',' :: ' ' :: r => some r
    | _ => none
  let (b, rest) ← SymStr.ofText rest
  if rest = [] then some (Instr.mk op a b) else none

/-- The written form of a response: the result in quotation marks, `true` or `false` for `VER`, or the error's name (R70). -/
def Response.text (op : Op) (r : Response) : List Char :=
  ['-', '>', ' '] ++
    match r.status with
    | .invalidGenerator => "InvalidGenerator".toList
    | .malformedInput => "MalformedInput".toList
    | .ok =>
      match op with
      | .ver => if r.valid then "true".toList else "false".toList
      | .xor | .div | .enc => quoteChar :: ((r.payload.map fun b => if b then '1' else '0') ++ [quoteChar])

/-! ## The opcode table's words -/

/-- The beats of the frame whose bits are `w`, at the table's parameters (`LENW = 8`, `SYMCHK = true`).
DESIGN CHOICE (log entry 17): the 18-bit header is bits 17..0 and payload beat `k` (from 0) is bits `18+2k+1 .. 18+2k`;
every bit from `nbits` up is 0. -/
def tableBeats (nbits w : Nat) : List Beat :=
  let v := w % 2 ^ nbits
  let h := v % 2 ^ 18
  h :: (List.range (headerLenA Config.table h + headerLenB Config.table h)).map fun k => v / 2 ^ (18 + 2 * k) % 4

/-- The command the decoder reads from an opcode-table word. -/
def decodeTableWord (nbits w : Nat) : Option Instr :=
  match decodeCmd Config.table (tableBeats nbits w) with
  | .command i _ => some i
  | .awaitHeader => none
  | .awaitBeats _ => none

end Sys2Proof
end

