-- ==== Sys2Proof/Machine/State.lean ====
section
/-! DEFINITION. The state of one instance with its ports, the reasons a step can stop, and the state after reset. -/

namespace Sys2Proof.Machine

/-- The phase of an instance (R25). -/
inductive Phase where
  | idle
  | run
  deriving DecidableEq, Repr, Inhabited

/-- Reasons the machine stops. The two errors of the block are no faults: each is a response (R186). -/
inductive Fault where
  /-- Raised by every meaning when it is called at `PH = RUN`, where R33 has no ISSUE step: the instance is busy (R30, R224).
  `step` never raises it: it leaves a waiting command at the port. Safe. -/
  | issueNotEnabled
  /-- Raised by a DIVSTEP at `PH = RUN` whose generator is not valid: R119 leaves `divStep` undefined there.
  No state that meets the invariant raises it. Safe. -/
  | undefinedDivisor
  deriving DecidableEq, Repr

/-- Reasons a command has no meaning. -/
inductive Refusal where
  /-- Raised by an arm of `exec` whose instruction has no meaning yet. No arm raises it now. Safe. -/
  | notModelled (mnemonic : String)
  /-- Raised by every meaning when an operand holds the symbol `other` and `SYMCHK = false`: the port has no code for it
  and `bits` is not defined on it (R8, R73, R183). `step` never raises it: the decoder gives no such command. Safe. -/
  | notPresentable
  deriving DecidableEq, Repr

/-- One instance: its parameters, its five registers (R25), and its command and response ports. -/
structure State where
  /-- The parameters of the instance, which no step changes (R5; log entry 1). -/
  cfg : Config
  /-- `PH`, the phase (R25). -/
  ph : Phase
  /-- `OPR`, the operation in flight while `PH = RUN` (R25). -/
  opr : Opr
  /-- `W`, the working value of the division loop (R25). -/
  w : BitStr
  /-- `G`, the validated generator (R25). -/
  g : BitStr
  /-- `MSG`, the message kept for `ENC` (R25). -/
  msg : BitStr
  /-- The command port: the beats the host has presented and ISSUE has not yet taken, first beat at the head (R74; log entry 5). -/
  cmdIn : List Beat
  /-- The responses the host has received whole, oldest first: the host's own record, no register of the block (R28, R229; log entry 8). -/
  rspTaken : List Response
  /-- The response port: the beats, already received by the host, of a response frame that is only partly sent (R39, R220; log entry 21). -/
  rspPart : List Beat
  /-- The response port: the host is ready to take a response; while it is not, a step that hands one over happens later (R229; log entry 8). -/
  rspReady : Bool
  /-- The host asserts reset (R220; log entry 9). -/
  rst : Bool
  /-- How many RESET steps have drawn free values (log entry 3). -/
  fresh : Nat
  deriving DecidableEq, Repr

/-- An instance with parameters `c` right after reset: idle (R39), nothing at its ports.
DESIGN CHOICE (log entry 2): R39 gives `OPR`, `W`, `G` and `MSG` no value; they hold `DIV` and empty strings here. -/
def State.resetWith (c : Config) : State where
  cfg := c
  ph := .idle
  opr := .div
  w := []
  g := []
  msg := []
  cmdIn := []
  rspTaken := []
  rspPart := []
  rspReady := true
  rst := false
  fresh := 0

/-- The machine right after reset, at the parameters of the spec's worked encodings (log entry 1). -/
def State.reset : State := State.resetWith Config.table

end Sys2Proof.Machine
end

