-- ==== Sys2Proof/Machine/Flags.lean ====
section
/-! DEFINITION. The validity flag, the block's one flag, which lives in a response only (R28). -/

namespace Sys2Proof.Machine

/-- `isZero(r)` of R160: the string contains no 1 bit. -/
def isZero (r : BitStr) : Bool := r.all (!·)

end Sys2Proof.Machine
end

