-- ==== Sys2Proof/Machine/Operands.lean ====
section
/-! DEFINITION. The operand forms: raw operands and their bits, the generator check, the padded dividend, the normalized remainder. -/

namespace Sys2Proof.Machine

/-- `isBits(r)` of R8: no symbol of the raw operand is `other`. -/
def isBits (r : SymStr) : Bool := r.all (· != .other)

/-- The bit of a symbol; `other` has none (R8). -/
def symBit : Sym → Option Bit
  | .b0 => some false
  | .b1 => some true
  | .other => none

/-- `bits(r)` of R8, defined only when `isBits(r)`. -/
def bits? : SymStr → Option BitStr
  | [] => some []
  | s :: r => do
    let b ← symBit s
    let bs ← bits? r
    some (b :: bs)

/-- What ISSUE makes of the two raw operands of a command (R33). -/
inductive Operands where
  /-- Both are bit strings. -/
  | bits (a b : BitStr)
  /-- `SYMCHK = true` and one of them holds `other` (R183). -/
  | malformed
  /-- `SYMCHK = false` and one of them holds `other`, which the port cannot carry (R73, R183; log entry 12). -/
  | notPresentable
  deriving DecidableEq, Repr

/-- The first check of ISSUE: are both operands bit strings (R33, R183)? -/
def readOperands (c : Config) (rA rB : SymStr) : Operands :=
  match bits? rA, bits? rB with
  | some a, some b => .bits a b
  | _, _ => if c.symchk then .malformed else .notPresentable

/-- `validGen(G)` of R21: at least `GMIN` bits, the leading one a 1. -/
def validGen (g : BitStr) : Bool :=
  decide (gmin ≤ g.length) && (g.head? == some true)

/-- `pad(M, G)`, the padded dividend (R140). -/
def pad (m g : BitStr) : BitStr := m ++ zeros (g.length - 1)

/-- `norm(r, w)`: the raw remainder left-padded with zeros to `w` bits (R141). -/
def normBits (r : BitStr) (w : Nat) : BitStr := zeros (w - r.length) ++ r

end Sys2Proof.Machine
end

