-- ==== Sys2Proof/Machine/Ops.lean ====
section
/-! DEFINITION. The shared operations on the state: handing over a response, raising an error, loading a division, RESET,
taking a frame from the port, the validation of ISSUE, and the host's moves. -/

namespace Sys2Proof.Machine

/-- `respond` of R8: hand one response over to the host, whole (R59, R229): with its last beat the frame is no longer partly sent. -/
def State.respond (s : State) (r : Response) : State :=
  { s with rspTaken := s.rspTaken ++ [r], rspPart := [] }

/-- `raise e` of R8, the block's whole exception entry: the response is the error's status code, and no register is written (R186).
There is no return from an error (R187): the next command is taken as after a success. -/
def State.takeError (s : State) (e : CrcError) : State :=
  s.respond (Response.error e)

/-- The register writes of ISSUE that start a division: `OPR`, `G`, `W` and `PH` (R33). -/
def State.loadDivision (s : State) (opr : Opr) (g w : BitStr) : State :=
  { s with opr := opr, g := g, w := w, ph := .run }

/-- The command port with `beats` left on it. -/
def State.withPort (s : State) (beats : List Beat) : State :=
  { s with cmdIn := beats }

/-- Take the whole command frame at the front of the command port, if one is there (R75, R225). -/
def fetch (s : State) : Option (Instr × State) :=
  match decodeCmd s.cfg s.cmdIn with
  | .command i rest => some (i, s.withPort rest)
  | .awaitHeader => none
  | .awaitBeats _ => none

/-- What RESET leaves at the command port: the whole frames that wait there (log entry 10). A frame partly received is discarded (R220),
and so, at `PH = IDLE`, is the frame at the front when its response is partly sent: that response is abandoned (R39; log entry 21). -/
def portAfterReset (s : State) : List Beat :=
  match s.ph, s.rspPart, decodeCmd s.cfg s.cmdIn with
  | .idle, _ :: _, .command _ rest => wholeFrames s.cfg rest
  | _, _, _ => wholeFrames s.cfg s.cmdIn

/-- The RESET step (R220, R36): idle, the other registers at free values (R39; log entry 3), a command frame partly received discarded,
a response frame partly sent void (R39). The command in flight gets no response, and the responses the host had received whole before
are its own.
DESIGN CHOICE (log entry 3): the free values depend on `State.fresh` alone, so two instances with equal `fresh` get equal contents,
which R39 leaves open for each of them. -/
def applyReset (s : State) : State :=
  { s with
    ph := .idle
    opr := Config.freeOpr s.fresh
    w := Config.freeW s.fresh
    g := Config.freeG s.fresh
    msg := Config.freeMsg s.fresh
    cmdIn := portAfterReset s
    rspPart := []
    rst := false
    fresh := s.fresh + 1 }

/-- The part of ISSUE common to the four operations (R33): enabled only at `PH = IDLE`, then the check for non-bits (R183),
then `go` on the two bit strings. -/
def issue (s : State) (rA rB : SymStr) (go : BitStr → BitStr → State) : Host.Outcome State Fault Refusal :=
  match s.ph with
  | .run => .fault .issueNotEnabled
  | .idle =>
    match readOperands s.cfg rA rB with
    | .malformed => .next (s.takeError .malformedInput)
    | .notPresentable => .refused .notPresentable
    | .bits a b => .next (go a b)

/-- The second check of ISSUE, for an operation that takes a generator (R33, R182): `start` only if it is valid. -/
def checkGenerator (s : State) (g : BitStr) (start : State) : State :=
  if validGen g then start else s.takeError .invalidGenerator

/-- Put a frame of the opcode table at the head of the command port, with all that makes the next step take it:
the table's parameters, `PH = IDLE`, no reset asserted, and a host that is ready to take a response (log entry 16). -/
def placeTableFrame (s : State) (nbits w : Nat) : State :=
  { s with cfg := Config.table, ph := .idle, rst := false, rspReady := true, cmdIn := tableBeats nbits w ++ s.cmdIn }

/-! ## The host's moves between steps (R10.8) -/

/-- The host presents further beats of command frames (R74). -/
def State.present (s : State) (beats : List Beat) : State :=
  { s with cmdIn := s.cmdIn ++ beats }

/-- The host asserts reset (R220). -/
def State.assertReset (s : State) : State :=
  { s with rst := true }

/-- The host becomes ready to take a response, or not (R229). -/
def State.setReady (s : State) (ready : Bool) : State :=
  { s with rspReady := ready }

/-- The host reads, as frames, and clears its record of the responses it has received whole (R81). -/
def State.readTaken (s : State) : List (List Beat) × State :=
  (s.rspTaken.map encodeRsp, { s with rspTaken := [] })

end Sys2Proof.Machine
end

