-- ==== Sys2Proof/Machine/BitXor.lean ====
section
/-! DEFINITION. The XOR operation (40_bitxor.md). -/

namespace Sys2Proof.Machine

/-- `xorBits(a, b)` of R100: position by position from the leading end, cut to the shorter. -/
def xorBits : BitStr → BitStr → BitStr
  | a :: as, b :: bs => (a ^^ b) :: xorBits as bs
  | [], _ => []
  | _ :: _, [] => []

/-- `XOR "a", "b"` (R101): answered inside ISSUE; no register is written. -/
def execXor (rA rB : SymStr) (s : State) : Host.Outcome State Fault Refusal :=
  issue s rA rB fun a b => s.respond (Response.okBits (xorBits a b))

end Sys2Proof.Machine
end

