-- ==== Sys2Proof/Machine/PolyDivide.lean ====
section
/-! DEFINITION. The DIV operation and the division loop (41_polydivide.md). -/

namespace Sys2Proof.Machine

/-- `divStep(W, G)` of R110, one iteration of the division loop.
Defined only when `validGen(G)` and `len(W) >= len(G)` (R110, R119). -/
def divStep (w g : BitStr) : Option BitStr :=
  if validGen g && decide (g.length ≤ w.length) then
    match w with
    | true :: _ => some ((xorBits g (w.take g.length)).tail ++ w.drop g.length)
    | false :: rest => some rest
    | [] => none
  else none

/-- The loop of R112 with a bound on its iterations. -/
def divLoop : Nat → BitStr → BitStr → Option BitStr
  | 0, w, g => if w.length < g.length then some w else none
  | fuel + 1, w, g =>
    if w.length < g.length then some w
    else (divStep w g).bind fun w' => divLoop fuel w' g

/-- `polyDivide(D, G)` of R112, the remainder of modulo-2 long division; defined only when `validGen(G)`.
Each iteration drops one bit (R110), so `len(D)` bounds the iterations. -/
def polyDivide (d g : BitStr) : Option BitStr :=
  if validGen g then divLoop d.length d g else none

/-- `steps(D, G) = max(0, len(D) - len(G) + 1)` of R115, from the two lengths. -/
def divSteps (lenD lenG : Nat) : Nat := lenD + 1 - lenG

/-- `n` iterations of the loop body of R112, whatever the loop test says. -/
def divIter : Nat → BitStr → BitStr → Option BitStr
  | 0, w, _ => some w
  | n + 1, w, g => (divStep w g).bind fun w' => divIter n w' g

/-- `DIV "dividend", "divisor"` (R113): ISSUE loads the dividend and the divisor. -/
def execDiv (rA rB : SymStr) (s : State) : Host.Outcome State Fault Refusal :=
  issue s rA rB fun d g => checkGenerator s g (s.loadDivision .div g d)

/-! ## The buffer form (R120) -/

/-- One in-place combination of R120: `B{i+j} <- B{i+j} ^ G{j}` for `j` in `0 .. g-1`. -/
def bufCombine (buf : BitStr) (i : Nat) (g : BitStr) : BitStr :=
  buf.take i ++ xorBits ((buf.drop i).take g.length) g ++ buf.drop (i + g.length)

/-- One pass of the loop body of R120 at index `i`: combine if `B{i} = 1`. -/
def bufStep (buf : BitStr) (i : Nat) (g : BitStr) : BitStr :=
  if buf[i]? = some true then bufCombine buf i g else buf

/-- The buffer after `k` passes of the loop body of R120, whatever the loop test says. -/
def bufIter : Nat → BitStr → BitStr → BitStr
  | 0, buf, _ => buf
  | k + 1, buf, g => bufStep (bufIter k buf g) k g

/-- The loop of R120 with a bound on its iterations: the window index `i` runs while `len(D) - i >= g`. -/
def bufLoop : Nat → BitStr → Nat → BitStr → BitStr
  | 0, buf, i, _ => buf.drop i
  | fuel + 1, buf, i, g =>
    if g.length ≤ buf.length - i then bufLoop fuel (bufStep buf i g) (i + 1) g else buf.drop i

/-- The division in DOC0's suggested form: a sliding window over a fixed buffer (R120). -/
def bufDivide (d g : BitStr) : Option BitStr :=
  if validGen g then some (bufLoop d.length d 0 g) else none

end Sys2Proof.Machine
end

