-- ==== Sys2Proof/Machine/Encode.lean ====
section
/-! DEFINITION. The ENC operation (42_encode.md). -/

namespace Sys2Proof.Machine

/-- `encode(M, G)` of R142: message ‖ normalized remainder of the padded dividend; defined only when `validGen(G)`. -/
def encode (m g : BitStr) : Option BitStr :=
  (polyDivide (pad m g) g).map fun r => m ++ normBits r (g.length - 1)

/-- `ENC "message", "generator"` (R143): ISSUE keeps the message and loads the padded dividend and the generator. -/
def execEnc (rA rB : SymStr) (s : State) : Host.Outcome State Fault Refusal :=
  issue s rA rB fun m g => checkGenerator s g ({ s with msg := m }.loadDivision .enc g (pad m g))

end Sys2Proof.Machine
end

