-- ==== Sys2Proof/Machine/Verify.lean ====
section
/-! DEFINITION. The VER operation (43_verify.md). -/

namespace Sys2Proof.Machine

/-- `verify(C, G)` of R161: does the remainder contain no 1 bit? Defined only when `validGen(G)`. -/
def verify (c g : BitStr) : Option Bool :=
  (polyDivide c g).map isZero

/-- `VER "codeword", "generator"` (R163): ISSUE loads the code word, as received, and the generator. -/
def execVer (rA rB : SymStr) (s : State) : Host.Outcome State Fault Refusal :=
  issue s rA rB fun c g => checkGenerator s g (s.loadDivision .ver g c)

end Sys2Proof.Machine
end

