-- ==== Sys2Proof/Machine/Dispatch.lean ====
section
/-! DEFINITION. The ISSUE step of a decoded command, one arm per operation (R33). -/

namespace Sys2Proof.Machine

def exec (i : Instr) (s : State) : Host.Outcome State Fault Refusal :=
  match i with
  | .xor rA rB => Sys2Proof.Machine.execXor rA rB s
  | .div rA rB => Sys2Proof.Machine.execDiv rA rB s
  | .enc rA rB => Sys2Proof.Machine.execEnc rA rB s
  | .ver rA rB => Sys2Proof.Machine.execVer rA rB s

end Sys2Proof.Machine
end

