-- ==== Sys2Proof/Machine/Sequence.lean ====
section
/-! DEFINITION. The steps of an instance with a command in flight, DIVSTEP and COMPLETE (R34, R35, R37), and the response port:
which response the next step hands over, and the wait on a slow host (R229). -/

namespace Sys2Proof.Machine

/-- The step DIVSTEP (R34): it writes `W` only. Where R119 leaves `divStep` undefined it stops. -/
def divStepStep (s : State) : Host.Outcome State Fault Refusal :=
  match divStep s.w s.g with
  | some w' => .next { s with w := w' }
  | none => .fault .undefinedDivisor

/-- The response COMPLETE forms, by the operation in flight (R35). -/
def completionResponse (s : State) : Response :=
  match s.opr with
  | .div => Response.okBits s.w
  | .enc => Response.okBits (s.msg ++ normBits s.w (s.g.length - 1))
  | .ver => Response.okValid (isZero s.w)

/-- The step COMPLETE (R35): hand the response over and return to `PH = IDLE`; the other registers keep their values (R38). -/
def complete (s : State) : State :=
  { s.respond (completionResponse s) with ph := .idle }

/-- The one step enabled at `PH = RUN` (R37): COMPLETE once `len(W) < len(G)`, DIVSTEP before. -/
def advance (s : State) : Host.Outcome State Fault Refusal :=
  if s.w.length < s.g.length then .next (complete s) else divStepStep s

/-! ## The response port -/

/-- The response that ISSUE itself hands over (R33): an error, or the result of an `XOR`; none where it starts a division. -/
def issueResponse (c : Config) (i : Instr) : Option Response :=
  match readOperands c i.rA i.rB with
  | .malformed => some (Response.error .malformedInput)
  | .notPresentable => none
  | .bits a b =>
    match i.op with
    | .xor => some (Response.okBits (xorBits a b))
    | .div | .enc | .ver => if validGen b then none else some (Response.error .invalidGenerator)

/-- The response that the instance's next step hands over, if it hands one over: that of COMPLETE, or that of ISSUE (R229). -/
def offered (s : State) : Option Response :=
  match s.ph with
  | .run => if s.w.length < s.g.length then some (completionResponse s) else none
  | .idle =>
    match fetch s with
    | some (i, _) => issueResponse s.cfg i
    | none => none

/-- The next step hands a response over and the host is not ready to take it: the step happens later (R229). -/
def waitsForHost (s : State) : Bool := !s.rspReady && (offered s).isSome

/-- A host's move: it receives `n` more beats of the response frame now offered, short of the last one (R39, R220).
The step that forms the response is the hand-over (R229), so the last beat goes with that step (log entry 21). -/
def State.receive (s : State) (n : Nat) : State :=
  match offered s with
  | some r => { s with rspPart := (encodeRsp r).take (min (s.rspPart.length + n) r.rlen) }
  | none => s

end Sys2Proof.Machine
end

