-- ==== Sys2Proof/Machine/Step.lean ====
section
/-! DEFINITION. One step of an instance (R33 to R37), and the placing of a table word for the next step. -/

namespace Sys2Proof.Machine

/-- One step: RESET if the host asserts it (R36); nothing yet where the step would hand a response over to a host that is not ready
(R229; log entry 6); else the step enabled at `PH = RUN` (R37), else ISSUE of the whole frame at the
command port (R33); an idle instance with no whole frame there waits (R37, R225; log entry 6). -/
def step (s : State) : Host.Outcome State Fault Refusal :=
  if s.rst then .next (applyReset s)
  else if waitsForHost s then .next s
  else
    match s.ph with
    | .run => advance s
    | .idle =>
      match fetch s with
      | some (i, s') => exec i s'
      | none => .next s

/-- The state with a table word placed where `step` takes its next command (log entries 16 and 17). -/
def State.withFetchWord (s : State) (nbits w : Nat) : State := placeTableFrame s nbits w

end Sys2Proof.Machine
end

