-- ==== Sys2Proof/Machine/FunctionLevel.lean ====
section
/-! DEFINITION. The function level of R6 (a): each operation as a function from its operands to a response, with the pseudocode of
R101, R113, R143 and R163, and the step counts of R231. The machine does not use it; claims compare the two levels (R118). -/

namespace Sys2Proof.Machine

/-- The response of one operation on two bit strings; a generator that fails `validGen` gives `InvalidGenerator` (R182). -/
def respondBits : Op → BitStr → BitStr → Response
  | .xor, a, b => Response.okBits (xorBits a b)
  | .div, d, g => ((polyDivide d g).map Response.okBits).getD (Response.error .invalidGenerator)
  | .enc, m, g => ((encode m g).map Response.okBits).getD (Response.error .invalidGenerator)
  | .ver, c, g => ((verify c g).map Response.okValid).getD (Response.error .invalidGenerator)

/-- The response to a command, a function of the command alone (R6 (a), R7); none where the port cannot carry the command (R73). -/
def respondTo (c : Config) (i : Instr) : Option Response :=
  match readOperands c i.rA i.rB with
  | .malformed => some (Response.error .malformedInput)
  | .notPresentable => none
  | .bits a b => some (respondBits i.op a b)

/-- Does the command start a division, that is, is it no `XOR` and does it pass validation (R33)? -/
def startsDivision (c : Config) (i : Instr) : Bool :=
  match i.op with
  | .xor => false
  | .div | .enc | .ver =>
    match readOperands c i.rA i.rB with
    | .bits _ g => validGen g
    | .malformed | .notPresentable => false

/-- The number of DIVSTEPs of a command, from its operation and the lengths of its operands alone (R231). -/
def divStepCount (i : Instr) : Nat :=
  match i.op with
  | .xor => 0
  | .div => divSteps i.rA.length i.rB.length
  | .enc => i.rA.length
  | .ver => divSteps i.rA.length i.rB.length

/-- The number of steps the instance takes for a command (R231): ISSUE alone, or ISSUE, the DIVSTEPs and COMPLETE. -/
def totalSteps (c : Config) (i : Instr) : Nat :=
  if startsDivision c i then divStepCount i + 2 else 1

end Sys2Proof.Machine
end

