-- ==== Sys2Proof/Machine/Instances.lean ====
section
/-! DEFINITION. Several instances: the product of independent copies (R197). -/

namespace Sys2Proof.Machine

/-- A system of instances. No state is shared (R197). -/
abbrev Instances := List State

/-- Instance `k` of the system takes one step (R197). -/
def stepInstance (sys : Instances) (k : Fin sys.length) : Host.Outcome Instances Fault Refusal :=
  match step sys[k] with
  | .next s' => .next (sys.set k s')
  | .fault r => .fault r
  | .refused r => .refused r

end Sys2Proof.Machine
end

