-- ==== Sys2Proof/Safety.lean ====
section
/-! DEFINITION. What counts as a good state, a canonical frame, a canonical response and two states a host cannot tell apart,
and the polynomial a bit string spells: the terms that claims are stated in. -/

namespace Sys2Proof

/-- A command frame whose beats lie within the fields of R77 and R73 and which uses `10` for `other` (R84). -/
def FrameCanonical (c : Config) (f : List Beat) : Prop :=
  (∀ h, f.head? = some h → h < 2 ^ (2 + 2 * c.lenw)) ∧ ∀ v ∈ f.tail, v < if c.symchk then 3 else 2

/-- A response as R81 lets the block form it: nothing but the status on an error, no payload beside a set `valid` flag,
and at most `2*LMAX - 1` result bits (R80, R171). -/
def Response.Canonical (c : Config) (r : Response) : Prop :=
  (r.status ≠ .ok → r.valid = false ∧ r.payload = []) ∧ (r.valid = true → r.payload = []) ∧
    r.payload.length ≤ 2 * c.lmax - 1

/-- The polynomial over GF(2) that a bit string spells (R8): the sum over `i` of `s{i} * x^(len(s)-1-i)`. -/
noncomputable def BitStr.poly (s : BitStr) : Polynomial (ZMod 2) :=
  ∑ i ∈ Finset.range s.length, if s[i]? = some true then Polynomial.X ^ (s.length - 1 - i) else 0

/-- The bit string with the bit at position `i` flipped (R166). -/
def flipBit (s : BitStr) (i : Nat) : BitStr := s.modify i not

/-- The generators that are a power of `x`: a 1 followed by zeros (R166). -/
def weakGen (g : BitStr) : Bool := decide (g = true :: zeros (g.length - 1))

namespace Machine

/-- The lengths and values the registers have while a command is in flight (R21, R25):
a valid generator of at most `LMAX` bits and a working value of at most `2*LMAX - 1`; for `ENC` a message of at most `LMAX` bits,
and a working value between the checksum width and the padded dividend's length. -/
def State.RunInv (s : State) : Prop :=
  validGen s.g = true ∧ s.g.length ≤ s.cfg.lmax ∧ s.w.length ≤ 2 * s.cfg.lmax - 1 ∧
    (s.opr = .enc → s.msg.length ≤ s.cfg.lmax ∧ s.g.length - 1 ≤ s.w.length ∧
      s.w.length ≤ s.msg.length + (s.g.length - 1))

/-- A response frame is partly sent only while a response is offered, and what the host has received of it are beats from the front of
its frame, short of the last one (R74, R81, R229). -/
def State.PartInv (s : State) : Prop :=
  s.rspPart ≠ [] → ∃ r, offered s = some r ∧ s.rspPart <+: encodeRsp r ∧ s.rspPart.length < (encodeRsp r).length

/-- The machine's invariant: a positive `LENW`, `RunInv` while a command is in flight, canonical responses handed over, and a response
frame partly sent only as the front of the one offered. -/
def State.Inv (s : State) : Prop :=
  s.cfg.Wf ∧ (s.ph = .run → s.RunInv) ∧ (∀ r ∈ s.rspTaken, r.Canonical s.cfg) ∧ s.PartInv

/-- While an `ENC` is in flight, what remains to be divided has the remainder of the padded message (R35, R142). -/
def State.EncInv (s : State) : Prop :=
  s.ph = .run → s.opr = .enc → validGen s.g = true ∧ polyDivide s.w s.g = polyDivide (pad s.msg s.g) s.g

/-- Two states that differ at most in registers no rule reads before writing them (R38, R39): alike in parameters, phase, ports,
host record and reset line, and, while a command is in flight, in `OPR`, `W`, `G` and, for `ENC`, `MSG`. -/
def State.Alike (s t : State) : Prop :=
  s.cfg = t.cfg ∧ s.ph = t.ph ∧ s.cmdIn = t.cmdIn ∧ s.rspTaken = t.rspTaken ∧ s.rspPart = t.rspPart ∧
    s.rspReady = t.rspReady ∧ s.rst = t.rst ∧
    (s.ph = .run → s.opr = t.opr ∧ s.w = t.w ∧ s.g = t.g ∧ (s.opr = .enc → s.msg = t.msg))

/-- Two outcomes that a host cannot tell apart: alike next states, or the same stop. -/
def OutcomesAlike : Host.Outcome State Fault Refusal → Host.Outcome State Fault Refusal → Prop
  | .next s, .next t => s.Alike t
  | .fault a, .fault b => a = b
  | .refused a, .refused b => a = b
  | _, _ => False

end Machine

end Sys2Proof
end

