-- ==== Sys2Proof/Certificates/Slice0/Obligations.lean ====
section
/-! DEFINITION. The statements for the provers. -/

open Sys2Proof Sys2Proof.Machine Host

/-! ## Encodings -/

/-- R84: decoding an encoded command gives it back whatever beats follow, encoding a decoded canonical frame gives it back,
and a frame shorter than its header announces is incomplete: an idle instance waits for the rest, no step of it changes anything. -/
def Obligations.FrameCodecInverse : Prop :=
  (∀ (c : Config) (i : Instr) (rest : List Beat), i.wf c = true → decodeCmd c (encodeCmd c i ++ rest) = .command i rest) ∧
  (∀ (c : Config) (f : List Beat) (i : Instr), FrameCanonical c f → decodeCmd c f = .command i [] → encodeCmd c i = f) ∧
  (∀ (c : Config) (i : Instr) (n : Nat), i.wf c = true → 0 < n → n < (encodeCmd c i).length →
    decodeCmd c ((encodeCmd c i).take n) = .awaitBeats ((encodeCmd c i).length - n)) ∧
  ∀ (s : State) (i : Instr) (n : Nat), s.ph = .idle → s.rst = false → i.wf s.cfg = true → n < (encodeCmd s.cfg i).length →
    s.cmdIn = (encodeCmd s.cfg i).take n → ∀ t : State, step s = .next t → t = s

/-- R77: the header is the number `op + 4*lenA + 2^(LENW+2)*lenB`, it fits `2 + 2*LENW` bits, its fields stand at bits `[1:0]`,
`[LENW+1:2]` and `[2*LENW+1:LENW+2]`, and every field value is legal at decode. -/
def Obligations.CommandHeaderFields : Prop :=
  ∀ c : Config,
    (∀ i : Instr, i.wf c = true →
      encodeHeader c i = i.op.code + 4 * i.rA.length + 2 ^ (c.lenw + 2) * i.rB.length ∧
      encodeHeader c i < 2 ^ (2 + 2 * c.lenw) ∧
      headerOp (encodeHeader c i) = i.op ∧
      headerLenA c (encodeHeader c i) = i.rA.length ∧
      headerLenB c (encodeHeader c i) = i.rB.length) ∧
    (∀ h k : Nat,
      (headerOp h).code.testBit k = (decide (k < 2) && h.testBit k) ∧
      (headerLenA c h).testBit k = (decide (k < c.lenw) && h.testBit (k + 2)) ∧
      (headerLenB c h).testBit k = (decide (k < c.lenw) && h.testBit (k + (c.lenw + 2)))) ∧
    ∀ (o : Op) (a b : Nat), a ≤ c.lmax → b ≤ c.lmax → ∃ h, headerOp h = o ∧ headerLenA c h = a ∧ headerLenB c h = b

/-- R76: the operation code is 2 bits and every value is used, `00` to `11` in the order XOR, DIV, ENC, VER;
and a header meets exactly the row of the opcode map that the decoder's operation names. -/
def Obligations.OperationCodes : Prop :=
  (Op.code .xor = 0 ∧ Op.code .div = 1 ∧ Op.code .enc = 2 ∧ Op.code .ver = 3) ∧
  (∀ o : Op, Op.ofCode o.code = o) ∧ (∀ n : Nat, (Op.ofCode n).code = n % 4) ∧
  ∀ (h : Nat) (row : OpcodeRow), row ∈ opcodeMap → ((h &&& row.mask = row.value) ↔ headerOp h = row.op)

/-- R78: once the payload that the header announces is there, every header decodes to a command; beat `1 + i` is `rA{i}`, beat
`lenA + 1 + j` is `rB{j}`, and the beats after them are left. -/
def Obligations.OperandAssembly : Prop :=
  ∀ (c : Config) (h : Nat) (body : List Beat), headerLenA c h + headerLenB c h ≤ body.length →
    ∃ i : Instr, decodeCmd c (h :: body) = .command i (body.drop (headerLenA c h + headerLenB c h)) ∧
      i.wf c = true ∧ i.op = headerOp h ∧ i.rA.length = headerLenA c h ∧ i.rB.length = headerLenB c h ∧
      (∀ k, k < headerLenA c h → i.rA[k]? = body[k]?.map (symOfBeat c)) ∧
      ∀ k, k < headerLenB c h → i.rB[k]? = body[headerLenA c h + k]?.map (symOfBeat c)

/-- R73: the symbol codes, both codes of `other`, the 1-bit port, and the characters of a host's text. -/
def Obligations.SymbolCodes : Prop :=
  (∀ (c : Config) (v : Nat), c.symchk = true → v < 4 →
    symOfBeat c v = if v = 0 then .b0 else if v = 1 then .b1 else .other) ∧
  (∀ (c : Config) (v : Nat), c.symchk = false → symOfBeat c v = if v % 2 = 0 then .b0 else .b1) ∧
  ∀ ch : Char, (Sym.ofChar ch = .b0 ↔ ch = '0') ∧ (Sym.ofChar ch = .b1 ↔ ch = '1') ∧
    (Sym.ofChar ch = .other ↔ ch ≠ '0' ∧ ch ≠ '1')

/-- A sanity statement on four frames of 95_test_vectors.md: F1, F7, F5 and F11 decode to the commands they are listed for. -/
def Obligations.ListedFramesDecode : Prop :=
  decodeCmd Config.table [0x0101A, 1, 0, 0, 1, 0, 0, 1, 0, 1, 1] =
    .command (.enc [.b1, .b0, .b0, .b1, .b0, .b0] [.b1, .b0, .b1, .b1]) [] ∧
  decodeCmd Config.table [0x01013, 1, 0, 2, 1, 1, 0, 1, 1] =
    .command (.ver [.b1, .b0, .other, .b1] [.b1, .b0, .b1, .b1]) [] ∧
  decodeCmd Config.table [0x00810, 1, 1, 0, 0, 1, 0] = .command (.xor [.b1, .b1, .b0, .b0] [.b1, .b0]) [] ∧
  decodeCmd Config.table [0x01021, 1, 1, 0, 1, 0, 0, 1, 1, 1, 0, 1, 1] =
    .command (.div [.b1, .b1, .b0, .b1, .b0, .b0, .b1, .b1] [.b1, .b0, .b1, .b1]) []

/-- The response frame (30_encoding.md section 5): a host reads back every response whose result fits `rlen`; the header is
`status + 4*valid + 8*rlen` and fits `LENW + 4` bits; the reserved status is never emitted and always refused. -/
def Obligations.ResponseFrameRoundTrip : Prop :=
  (∀ (c : Config) (r : Response) (rest : List Beat), r.rlen < 2 ^ (c.lenw + 1) →
    decodeRsp c (encodeRsp r ++ rest) = .response r rest ∧
    encodeRspHeader r = r.status.code + 4 * r.valid.toNat + 8 * r.rlen ∧ encodeRspHeader r < 2 ^ (c.lenw + 4)) ∧
  (∀ r : Response, encodeRspHeader r % 4 ≠ 3) ∧
  ∀ (c : Config) (h : Nat) (body : List Beat), h % 4 = 3 → decodeRsp c (h :: body) = .reservedStatus

/-- The text form (30_encoding.md section 1): reading a written command gives it back, and an operand's text has one character per
symbol between the quotation marks. -/
def Obligations.TextFormRoundTrip : Prop :=
  (∀ i : Instr, Instr.ofText i.text = some i) ∧ ∀ r : SymStr, (SymStr.text r).length = r.length + 2

/-- R55: a bit string of length `n` packs as `v[n-1-i] = s{i}`, it is recovered from its length and its vector, and the vector alone
does not determine it. -/
def Obligations.PackingRoundTrip : Prop :=
  (∀ s : BitStr, BitStr.ofNat s.length s.toNat = s ∧ s.toNat < 2 ^ s.length ∧
    ∀ i, i < s.length → s[i]? = some (s.toNat.testBit (s.length - 1 - i))) ∧
  (∀ n v : Nat, v < 2 ^ n → (BitStr.ofNat n v).toNat = v ∧ (BitStr.ofNat n v).length = n) ∧
  BitStr.toNat [false, true, true] = BitStr.toNat [true, true]

/-! ## XOR -/

/-- R100: `xorBits` has the shorter length, and each position is the exclusive or of the two bits there. -/
def Obligations.XorBitsPositionwise : Prop :=
  ∀ a b : BitStr, (xorBits a b).length = min a.length b.length ∧
    ∀ (i : Nat) (x y : Bit), a[i]? = some x → b[i]? = some y → (xorBits a b)[i]? = some (x ^^ y)

/-- R103: `xorBits` is symmetric, for unequal lengths too. -/
def Obligations.XorSymmetry : Prop :=
  ∀ a b : BitStr, xorBits a b = xorBits b a

/-- R104 (a) to (f). -/
def Obligations.XorLaws : Prop :=
  (∀ a b : BitStr, (xorBits a b).length = min a.length b.length) ∧
  (∀ a : BitStr, xorBits a a = zeros a.length) ∧
  (∀ (a : BitStr) (n : Nat), xorBits a (zeros n) = a.take (min a.length n)) ∧
  (∀ a b c : BitStr, a.length = b.length → b.length = c.length →
    xorBits (xorBits a b) c = xorBits a (xorBits b c) ∧ xorBits (xorBits a b) b = a) ∧
  (∀ a b : BitStr, a.length = b.length → 1 ≤ a.length → a.head? = b.head? → (xorBits a b).head? = some false) ∧
  ∀ (a b : BitStr) (k : Nat), k ≤ min a.length b.length → (xorBits a b).take k = xorBits (a.take k) (b.take k)

/-- R101, from the state alone and from its frame: on bits an idle instance answers XOR at once with the exclusive or, whatever the two
lengths, `rlen = min(lenA, lenB)`, and writes nothing else; on a non-bit it answers `MalformedInput`; the operation code is `00`. The step happens once the host is ready
to take a response (PortsAreQueues states the wait, R229). -/
def Obligations.XorAnswersAtOnce : Prop :=
  (∀ (s : State) (rA rB : SymStr), s.ph = .idle →
    (∀ a b : BitStr, bits? rA = some a → bits? rB = some b →
      exec (.xor rA rB) s = .next { s with rspTaken := s.rspTaken ++ [⟨.ok, false, xorBits a b⟩], rspPart := [] } ∧
      (xorBits a b).length = min rA.length rB.length) ∧
    (s.cfg.symchk = true → (isBits rA && isBits rB) = false →
      exec (.xor rA rB) s = .next { s with rspTaken := s.rspTaken ++ [⟨.malformedInput, false, []⟩], rspPart := [] })) ∧
  (∀ (s : State) (rA rB : SymStr) (rest : List Beat), s.ph = .idle → s.rst = false → Instr.wf s.cfg (.xor rA rB) = true →
    s.cmdIn = encodeCmd s.cfg (.xor rA rB) ++ rest →
    encodeHeader s.cfg (.xor rA rB) % 4 = 0 ∧ (s.rspReady = true → step s = exec (.xor rA rB) { s with cmdIn := rest })) ∧
  xorBits [true, false, false, true] [true, false, true, true] = [false, false, true, false]

/-! ## The ISSUE step -/

/-- DIV with a valid divisor on an idle instance loads `W`, `G`, `OPR` and `PH`, and nothing else (R33). -/
def Obligations.DivStartsDivision : Prop :=
  ∀ (s : State) (rA rB : SymStr) (d g : BitStr), s.ph = .idle → bits? rA = some d → bits? rB = some g → validGen g = true →
    exec (.div rA rB) s = .next { s with opr := .div, g := g, w := d, ph := .run }

/-- ENC with a valid generator on an idle instance keeps the message, loads the padded dividend into `W`, loads `G`, `OPR` and `PH`,
and nothing else; the empty message is accepted (R33, R146). -/
def Obligations.EncStartsDivision : Prop :=
  ∀ (s : State) (rA rB : SymStr) (m g : BitStr), s.ph = .idle → bits? rA = some m → bits? rB = some g → validGen g = true →
    exec (.enc rA rB) s =
      .next { s with opr := .enc, g := g, msg := m, w := m ++ List.replicate (g.length - 1) false, ph := .run }

/-- VER with a valid generator on an idle instance loads the code word as received, `G`, `OPR` and `PH`, and nothing else (R33). -/
def Obligations.VerStartsDivision : Prop :=
  ∀ (s : State) (rA rB : SymStr) (c g : BitStr), s.ph = .idle → bits? rA = some c → bits? rB = some g → validGen g = true →
    exec (.ver rA rB) s = .next { s with opr := .ver, g := g, w := c, ph := .run }

/-- R33 whole, for every operation: enabled only at `PH = IDLE`; `MalformedInput` first; `XOR` answered at once; an invalid generator
answered with `InvalidGenerator`; a valid one loaded with the operand. An error and an `XOR` write no register. -/
def Obligations.IssueStep : Prop :=
  ∀ (s : State) (i : Instr),
    (∀ t : State, exec i s = .next t → s.ph = .idle) ∧
    (s.ph = .idle → s.cfg.symchk = true → (isBits i.rA && isBits i.rB) = false →
      exec i s = .next { s with rspTaken := s.rspTaken ++ [⟨.malformedInput, false, []⟩], rspPart := [] }) ∧
    (s.ph = .idle → ∀ a b : BitStr, bits? i.rA = some a → bits? i.rB = some b →
      exec i s =
        match i.op with
        | .xor => .next { s with rspTaken := s.rspTaken ++ [⟨.ok, false, xorBits a b⟩], rspPart := [] }
        | .div =>
          if validGen b then .next { s with opr := .div, g := b, w := a, ph := .run }
          else .next { s with rspTaken := s.rspTaken ++ [⟨.invalidGenerator, false, []⟩], rspPart := [] }
        | .enc =>
          if validGen b then .next { s with opr := .enc, g := b, msg := a, w := a ++ zeros (b.length - 1), ph := .run }
          else .next { s with rspTaken := s.rspTaken ++ [⟨.invalidGenerator, false, []⟩], rspPart := [] }
        | .ver =>
          if validGen b then .next { s with opr := .ver, g := b, w := a, ph := .run }
          else .next { s with rspTaken := s.rspTaken ++ [⟨.invalidGenerator, false, []⟩], rspPart := [] })

/-- A command that holds `other` has no meaning on an instance whose port cannot carry it (R73, R183; log entry 12), and the decoder
of such an instance never gives one. -/
def Obligations.OtherNeedsSymbolCheck : Prop :=
  (∀ (s : State) (i : Instr), s.ph = .idle → s.cfg.symchk = false → (isBits i.rA && isBits i.rB) = false →
    exec i s = .refused .notPresentable) ∧
  ∀ (c : Config) (beats rest : List Beat) (i : Instr), c.symchk = false → decodeCmd c beats = .command i rest →
    (isBits i.rA && isBits i.rB) = true

/-! ## Errors -/

/-- R182: exactly when `InvalidGenerator` is the answer: the operation takes a generator, the operands are well formed, and the
generator is empty, or has one bit, or leads with 0. -/
def Obligations.InvalidGeneratorExactly : Prop :=
  ∀ (s : State) (i : Instr), s.ph = .idle →
    (exec i s = .next { s with rspTaken := s.rspTaken ++ [⟨.invalidGenerator, false, []⟩], rspPart := [] } ↔
      i.op ≠ .xor ∧ isBits i.rA = true ∧ isBits i.rB = true ∧
        (i.rB.length = 0 ∨ i.rB.length = 1 ∨ (2 ≤ i.rB.length ∧ i.rB.head? = some .b0)))

/-- R183: exactly when `MalformedInput` is the answer, for every operation and both operands; with `SYMCHK = false` it is unreachable. -/
def Obligations.MalformedInputExactly : Prop :=
  ∀ (s : State) (i : Instr), s.ph = .idle →
    (exec i s = .next { s with rspTaken := s.rspTaken ++ [⟨.malformedInput, false, []⟩], rspPart := [] } ↔
      s.cfg.symchk = true ∧ (Sym.other ∈ i.rA ∨ Sym.other ∈ i.rB))

/-- R185: when both errors apply the answer is `MalformedInput`. -/
def Obligations.MalformedInputFirst : Prop :=
  ∀ (s : State) (rA rB : SymStr) (o : Op), s.ph = .idle → s.cfg.symchk = true → o ≠ .xor →
    (Sym.other ∈ rA ∨ Sym.other ∈ rB) → (rB.length < 2 ∨ rB.head? ≠ some .b1) →
    exec (Instr.mk o rA rB) s = .next { s with rspTaken := s.rspTaken ++ [⟨.malformedInput, false, []⟩], rspPart := [] }

/-- R181: an error is decided in ISSUE from the operands alone and before any register is written; no step of a command in flight
raises one. -/
def Obligations.ErrorsOnlyAtIssue : Prop :=
  (∀ (s t : State) (i : Instr) (e : CrcError), exec i s = .next t → t.rspTaken = s.rspTaken ++ [Response.error e] →
    t = { s with rspTaken := s.rspTaken ++ [Response.error e], rspPart := [] } ∧
    ∀ u : State, u.ph = .idle → u.cfg = s.cfg →
      exec i u = .next { u with rspTaken := u.rspTaken ++ [Response.error e], rspPart := [] }) ∧
  ∀ s t : State, s.ph = .run → s.rst = false → step s = .next t →
    t.rspTaken = s.rspTaken ∨ ∃ r : Response, t.rspTaken = s.rspTaken ++ [r] ∧ r.status = .ok

/-! ## The division -/

/-- R110: one iteration, in both branches: the bit dropped is 0, the length falls by one, and the unconsumed tail passes through. -/
def Obligations.DivStepBehaviour : Prop :=
  ∀ w g : BitStr, validGen g = true → g.length ≤ w.length →
    ∃ w' : BitStr, divStep w g = some w' ∧ w'.length = w.length - 1 ∧
      (w.head? = some true → (xorBits g (w.take g.length)).head? = some false ∧
        w' = (xorBits g (w.take g.length)).tail ++ w.drop g.length) ∧
      (w.head? = some false → w' = w.tail) ∧
      ∀ i, g.length ≤ i → w'[i - 1]? = w[i]?

/-- R111: both branches are one formula, the window combined with the generator gated by the leading bit, then shifted by one. -/
def Obligations.DivStepOneFormula : Prop :=
  ∀ w g : BitStr, validGen g = true → g.length ≤ w.length →
    divStep w g =
      some ((xorBits (if w.head? = some true then g else zeros g.length) (w.take g.length)).tail ++ w.drop g.length)

/-- R112: `polyDivide` returns a dividend shorter than the generator, else divides what one iteration leaves; the result is shorter
than the generator. -/
def Obligations.PolyDivideRecursion : Prop :=
  ∀ d g : BitStr, validGen g = true →
    (d.length < g.length → polyDivide d g = some d) ∧
    (g.length ≤ d.length → polyDivide d g = (divStep d g).bind fun w => polyDivide w g) ∧
    ∃ r : BitStr, polyDivide d g = some r ∧ r.length < g.length

/-- R115: the loop runs exactly `max(0, len(D) - len(G) + 1)` iterations, each on a working value that is still long enough. -/
def Obligations.DivisionStepCount : Prop :=
  ∀ d g : BitStr, validGen g = true →
    polyDivide d g = divIter (d.length + 1 - g.length) d g ∧
    ∀ k, k ≤ d.length + 1 - g.length →
      ∃ w : BitStr, divIter k d g = some w ∧ w.length = d.length - k ∧
        (g.length ≤ w.length ↔ k < d.length + 1 - g.length)

/-- R116: the raw remainder has `min(len(D), len(G) - 1)` bits, leading zeros included. -/
def Obligations.RemainderLength : Prop :=
  (∀ d g : BitStr, validGen g = true → ∃ r : BitStr, polyDivide d g = some r ∧ r.length = min d.length (g.length - 1)) ∧
  polyDivide [true, false, true, true] [true, false, true, true] = some [false, false, false]

/-- R117: the remainder is the polynomial remainder over GF(2), it is the only string of its length that is, and it has no 1 bit iff
the generator divides the dividend. -/
def Obligations.RemainderValue : Prop :=
  ∀ d g : BitStr, validGen g = true →
    ∃ r : BitStr, polyDivide d g = some r ∧ r.poly = d.poly % g.poly ∧
      (∀ r' : BitStr, r'.length = min d.length (g.length - 1) → r'.poly = d.poly % g.poly → r' = r) ∧
      (isZero r = true ↔ g.poly ∣ d.poly)

/-- R120: the sliding window over a fixed buffer computes the same remainder; after each pass the working value is the buffer from the
window index on, and the bit passed over is 0. -/
def Obligations.BufferFormAgrees : Prop :=
  ∀ d g : BitStr, bufDivide d g = polyDivide d g ∧
    (validGen g = true → ∀ k, k ≤ d.length + 1 - g.length →
      divIter k d g = some ((bufIter k d g).drop k) ∧ (bufIter k d g).length = d.length ∧
      ∀ j, j < k → (bufIter k d g)[j]? = some false)

/-- R121 (a) to (g). -/
def Obligations.PolyDivideLaws : Prop :=
  ∀ g : BitStr, validGen g = true →
    polyDivide g g = some (zeros (g.length - 1)) ∧
    (∀ n : Nat, polyDivide (zeros n) g = some (zeros (min n (g.length - 1)))) ∧
    (∀ d : BitStr, (g.length - 1 ≤ d.length → polyDivide (false :: d) g = polyDivide d g) ∧
      (d.length < g.length - 1 → polyDivide (false :: d) g = some (false :: d))) ∧
    (∀ d r : BitStr, polyDivide d g = some r → polyDivide r g = some r) ∧
    (∀ d₁ d₂ r₁ r₂ : BitStr, d₁.length = d₂.length → polyDivide d₁ g = some r₁ → polyDivide d₂ g = some r₂ →
      polyDivide (xorBits d₁ d₂) g = some (xorBits r₁ r₂)) ∧
    (∀ d r : BitStr, polyDivide d g = some r → r.length < g.length) ∧
    ∀ d t r : BitStr, polyDivide d g = some r →
      polyDivide (d ++ t) g = polyDivide (r ++ t) g ∧ (t.length = 1 → (r ++ t).length ≤ g.length)

/-! ## ENC -/

/-- R140 and R141: `pad` appends `g - 1` zeros, `norm` prepends zeros up to the width; their lengths and polynomials. -/
def Obligations.PadAndNorm : Prop :=
  (∀ m g : BitStr, 1 ≤ g.length →
    pad m g = m ++ zeros (g.length - 1) ∧ (pad m g).length = m.length + g.length - 1 ∧
    (pad m g).poly = m.poly * Polynomial.X ^ (g.length - 1)) ∧
  ∀ (r : BitStr) (n : Nat), r.length ≤ n →
    normBits r n = zeros (n - r.length) ++ r ∧ (normBits r n).length = n ∧ (r.length = n → normBits r n = r) ∧ (normBits r n).poly = r.poly

/-- R142, R145 and R144: the code word is the message followed by exactly `g - 1` checksum bits, the remainder of the padded message;
normalizing that remainder changes nothing. -/
def Obligations.EncodeIsSystematic : Prop :=
  ∀ m g : BitStr, validGen g = true →
    ∃ r : BitStr, polyDivide (pad m g) g = some r ∧ encode m g = some (m ++ normBits r (g.length - 1)) ∧
      r.length = g.length - 1 ∧ normBits r (g.length - 1) = r ∧ (m ++ normBits r (g.length - 1)).length = m.length + g.length - 1

/-- R146: the empty message is encoded as `g - 1` zeros, without a DIVSTEP. -/
def Obligations.EmptyMessageEncodes : Prop :=
  ∀ (c : Config) (rB : SymStr) (g : BitStr), bits? rB = some g → validGen g = true →
    encode [] g = some (zeros (g.length - 1)) ∧
    respondTo c (.enc [] rB) = some ⟨.ok, false, zeros (g.length - 1)⟩ ∧
    divIter 0 (pad [] g) g = polyDivide (pad [] g) g

/-- R147: every code word made with a valid generator verifies, and its polynomial is the shifted message plus its remainder. -/
def Obligations.RoundTripValidity : Prop :=
  ∀ m g : BitStr, validGen g = true →
    ∃ c : BitStr, encode m g = some c ∧ verify c g = some true ∧ polyDivide c g = some (zeros (g.length - 1)) ∧
      c.poly = m.poly * Polynomial.X ^ (g.length - 1) + (m.poly * Polynomial.X ^ (g.length - 1)) % g.poly

/-- R148 (a) to (e). -/
def Obligations.EncodeLaws : Prop :=
  ∀ g : BitStr, validGen g = true →
    (∀ m c : BitStr, encode m g = some c → c.take m.length = m ∧ polyDivide c g = some (zeros (g.length - 1))) ∧
    (∀ n : Nat, encode (zeros n) g = some (zeros (n + g.length - 1))) ∧
    (∀ m₁ m₂ c₁ c₂ : BitStr, m₁.length = m₂.length → encode m₁ g = some c₁ → encode m₂ g = some c₂ →
      encode (xorBits m₁ m₂) g = some (xorBits c₁ c₂)) ∧
    ∀ m₁ m₂ : BitStr, encode m₁ g = encode m₂ g → m₁ = m₂

/-! ## VER -/

/-- R160: `isZero` is true exactly of the strings with no 1 bit, the empty one among them, and does not look at the length. -/
def Obligations.IsZeroMeansNoOneBit : Prop :=
  (∀ r : BitStr, isZero r = true ↔ ∀ i, i < r.length → r[i]? = some false) ∧ isZero [] = true ∧
  ∀ (r : BitStr) (n : Nat), isZero (normBits r n) = isZero r

/-- R164: a code word shorter than the generator is valid iff it is all zeros; the empty code word is valid. -/
def Obligations.ShortCodeWords : Prop :=
  ∀ g : BitStr, validGen g = true →
    (∀ c : BitStr, c.length < g.length → polyDivide c g = some c ∧ verify c g = some (isZero c)) ∧
    verify [] g = some true ∧ ∀ c : BitStr, polyDivide c g = some [] → c = []

/-- R165: the verdict says exactly whether the generator divides the code word; its consequences for zeros, the generator itself,
code words, and a 0 put before or after. -/
def Obligations.VerdictIsDivisibility : Prop :=
  ∀ g : BitStr, validGen g = true →
    (∀ c : BitStr, verify c g = some true ↔ g.poly ∣ c.poly) ∧
    (∀ n : Nat, verify (zeros n) g = some true) ∧ verify g g = some true ∧
    (∀ m c : BitStr, encode m g = some c → verify c g = some true) ∧
    ∀ c : BitStr, verify c g = some true → verify (false :: c) g = some true ∧ verify (c ++ [false]) g = some true

/-- R166: a single-bit flip of a code word is detected, except exactly when the generator is a power of `x` and the flip falls in the
message part; for such a generator the checksum is all zeros. -/
def Obligations.SingleBitDetection : Prop :=
  ∀ (m g c : BitStr) (i : Nat), validGen g = true → encode m g = some c → i < c.length →
    verify (flipBit c i) g = some (weakGen g && decide (i < m.length)) ∧
    (weakGen g = true → c = m ++ zeros (g.length - 1))

/-! ## The step machine -/

/-- One step of an idle instance with a whole frame at its command port is the ISSUE of the decoded command, with that frame taken
from the port and nothing else changed; and a decoded command is well formed. Where that ISSUE hands a response over and the host is
not ready to take one, it happens later: the step answers the unchanged state, the model's choice (log entry 6). -/
def Obligations.StepIssuesDecodedCommand : Prop :=
  ∀ (s : State) (i : Instr) (rest : List Beat), s.rst = false → s.ph = .idle → decodeCmd s.cfg s.cmdIn = .command i rest →
    i.wf s.cfg = true ∧
    (s.rspReady = true ∨ offered s = none → step s = exec i { s with cmdIn := rest }) ∧
    (s.rspReady = false → offered s ≠ none → step s = .next s)

/-- R34 and R35: at `PH = RUN` the step is DIVSTEP, which writes `W` only, while `len(W) >= len(G)`, whether or not the host is ready,
and COMPLETE, which hands the response over and returns to `PH = IDLE`, after; for a host that is not ready to take the response
COMPLETE happens later, and until then no step changes anything. -/
def Obligations.RunningStep : Prop :=
  ∀ s : State, s.ph = .run → s.rst = false →
    (s.g.length ≤ s.w.length → validGen s.g = true →
      ∃ w' : BitStr, divStep s.w s.g = some w' ∧ w'.length = s.w.length - 1 ∧ step s = .next { s with w := w' }) ∧
    (s.w.length < s.g.length →
      (s.rspReady = false → ∀ t : State, step s = .next t → t = s) ∧
      (s.rspReady = true →
        step s = .next { s with
          ph := .idle
          rspPart := []
          rspTaken := s.rspTaken ++ [
            match s.opr with
            | .div => ⟨.ok, false, s.w⟩
            | .enc => ⟨.ok, false, s.msg ++ normBits s.w (s.g.length - 1)⟩
            | .ver => ⟨.ok, isZero s.w, []⟩] }))

/-- The model's stops, each by its own name: ISSUE at `PH = RUN` (log entry 7); the division by a generator that is not valid, where
neither `divStep` nor `polyDivide` has a value and a DIVSTEP faults (R119; log entry 14). -/
def Obligations.UndefinedCasesStopByName : Prop :=
  (∀ (s : State) (i : Instr), s.ph = .run → exec i s = .fault .issueNotEnabled) ∧
  (∀ w g : BitStr, validGen g = false → divStep w g = none ∧ polyDivide w g = none) ∧
  ∀ s : State, s.ph = .run → s.rst = false → s.g.length ≤ s.w.length → validGen s.g = false →
    step s = .fault .undefinedDivisor

/-- An idle instance with no whole frame at its port waits: the step answers the unchanged state (log entry 6). -/
def Obligations.IdleInstanceWaits : Prop :=
  ∀ s : State, s.ph = .idle → s.rst = false →
    (∀ (i : Instr) (rest : List Beat), decodeCmd s.cfg s.cmdIn ≠ .command i rest) → step s = .next s

/-- R225: an idle instance acts only on a whole frame: with fewer beats no step changes anything, the missing beats end the wait (the host
being ready to take what the command answers at once), and a RESET discards the part received. -/
def Obligations.WholeFramesOnly : Prop :=
  ∀ (s : State) (i : Instr) (n : Nat), s.ph = .idle → i.wf s.cfg = true → n < (encodeCmd s.cfg i).length →
    s.cmdIn = (encodeCmd s.cfg i).take n →
    (s.rst = false → (∀ t : State, step s = .next t → t = s) ∧
      ∀ more : List Beat, s.rspReady = true →
        step (s.present ((encodeCmd s.cfg i).drop n ++ more)) = exec i { s with cmdIn := more }) ∧
    (s.rst = true → ∃ t : State, step s = .next t ∧ t.ph = .idle ∧ t.cmdIn = [])

/-- R220: RESET is enabled in every state; it leaves the instance idle, abandons the command in flight without a response, discards a
partly received command frame, voids a partly sent response frame, and while idle with nothing received or partly sent changes nothing
a host can observe. -/
def Obligations.ResetStep : Prop :=
  ∀ s : State, s.rst = true →
    ∃ t : State, step s = .next t ∧ t.ph = .idle ∧ t.rspTaken = s.rspTaken ∧ t.rspPart = [] ∧ t.cfg = s.cfg ∧
      (∀ (i : Instr) (n : Nat), i.wf s.cfg = true → n < (encodeCmd s.cfg i).length →
        s.cmdIn = (encodeCmd s.cfg i).take n → t.cmdIn = []) ∧
      (s.ph = .idle → s.cmdIn = [] → s.rspPart = [] → t.Alike { s with rst := t.rst })

/-- The model's reading of a RESET while whole frames wait at the port: they stay there, and the frame that is partly there goes
(log entry 10); so does, on an idle instance, the frame at the front if its response is partly sent (log entry 21). -/
def Obligations.WaitingFramesSurviveReset : Prop :=
  ∀ (s : State) (is : List Instr) (i : Instr) (n : Nat), s.rst = true → (∀ j ∈ is, j.wf s.cfg = true) → i.wf s.cfg = true →
    n < (encodeCmd s.cfg i).length →
    s.cmdIn = is.flatMap (encodeCmd s.cfg) ++ (encodeCmd s.cfg i).take n →
    ∃ t : State, step s = .next t ∧
      t.cmdIn = (if s.ph = .idle ∧ s.rspPart ≠ [] then is.tail else is).flatMap (encodeCmd s.cfg)

/-- R224: a busy instance takes no command; beats that wait at the port are neither dropped nor merged with the running command, do not
change what its step does, and the next response is the running command's. -/
def Obligations.BusyInstanceTakesNoCommand : Prop :=
  ∀ s : State, s.ph = .run →
    (∀ (i : Instr) (t : State), exec i s ≠ .next t) ∧
    (s.rst = false → ∀ t : State, step s = .next t →
      t.cmdIn = s.cmdIn ∧
      (t.rspTaken = s.rspTaken ∨ (t.ph = .idle ∧ t.rspTaken = s.rspTaken ++ [completionResponse s])) ∧
      ∀ more : List Beat, step (s.present more) = .next (t.present more))

/-- Which steps write which register (R25, R33 to R35): outside RESET, `OPR` and `G` only an ISSUE that starts a division, `MSG` only
the ISSUE of an ENC, `W` such an ISSUE or a DIVSTEP; no step changes the parameters or asserts reset, and the host alone says when it is ready. -/
def Obligations.RegisterWriters : Prop :=
  ∀ s t : State, s.rst = false → step s = .next t →
    ((t.opr ≠ s.opr ∨ t.g ≠ s.g) → s.ph = .idle ∧ t.ph = .run) ∧
    (t.msg ≠ s.msg → s.ph = .idle ∧ t.ph = .run ∧ t.opr = .enc) ∧
    (t.w ≠ s.w → t.ph = .run ∧ (s.ph = .idle ∨ s.g.length ≤ s.w.length)) ∧
    (s.ph = .run → t.ph = .idle → s.w.length < s.g.length) ∧
    t.cfg = s.cfg ∧ t.rst = false ∧ t.rspReady = s.rspReady ∧ t.fresh = s.fresh

/-- R60 (a) and R229 in one step: responses come back in issue order and are never lost, duplicated or overwritten; commands are taken
from the front of the port, whole and one at a time. A response is handed over only by the step that forms it and only to a host that is
ready: while the host is not, no step changes anything, so the next command is not taken either, and once it is the step hands over
exactly that response. A step that hands none over does not look at the host's readiness. -/
def Obligations.PortsAreQueues : Prop :=
  ∀ s t : State, step s = .next t →
    (t.rspTaken = s.rspTaken ∨
      (s.rst = false ∧ s.rspReady = true ∧ t.ph = .idle ∧ t.rspPart = [] ∧
        ∃ r : Response, offered s = some r ∧ t.rspTaken = s.rspTaken ++ [r])) ∧
    (s.rst = false → t.cmdIn = s.cmdIn ∨
      (s.ph = .idle ∧ ∃ i : Instr, decodeCmd s.cfg s.cmdIn = .command i t.cmdIn)) ∧
    (s.rst = false → ∀ r : Response, offered s = some r →
      (s.rspReady = false → t = s) ∧
      ∃ u : State, step (s.setReady true) = .next u ∧ u.ph = .idle ∧ u.rspTaken = s.rspTaken ++ [r]) ∧
    (s.rst = false → offered s = none → ∀ ready : Bool, step (s.setReady ready) = .next (t.setReady ready))

/-! ## Invariants and runs -/

/-- The invariant holds right after reset, for every positive `LENW` and either `SYMCHK`. -/
def Obligations.InvariantAtReset : Prop :=
  State.reset.Inv ∧ ∀ c : Config, c.Wf → (State.resetWith c).Inv ∧ (State.resetWith c).ph = .idle

/-- Every step keeps the invariant: a valid generator and the length bounds of R25 while a command is in flight, responses of the form of
R81, and a response frame partly sent only as the front of the one that is offered. -/
def Obligations.InvariantKept : Prop :=
  ∀ s t : State, s.Inv → step s = .next t → t.Inv

/-- No operation hangs or faults (R37, R189): every state that meets the invariant has a next state. Where the spec enables no step (an idle
instance with no whole frame at its port) or lets it happen later (a host that is slow to take a response), that next state is the
unchanged state, the model's choice (log entry 6). -/
def Obligations.StepAlwaysHasNext : Prop :=
  ∀ s : State, s.Inv → ∃ t : State, step s = .next t

/-- While an ENC is in flight every step keeps what is left to divide congruent to the padded message (R35, R142). -/
def Obligations.EncRemainderKept : Prop :=
  ∀ s t : State, s.EncInv → step s = .next t → t.EncInv

/-- In a state that meets the invariant every response handed over fits its frame: it is read back from its beats, and its header fits
`LENW + 4` bits (R80, R171). -/
def Obligations.ResponsesFitTheFrame : Prop :=
  ∀ s : State, s.Inv → ∀ r ∈ s.rspTaken,
    decodeRsp s.cfg (encodeRsp r) = .response r [] ∧ encodeRspHeader r < 2 ^ (s.cfg.lenw + 4) ∧
    (r.status ≠ .ok → r.valid = false ∧ r.rlen = 0)

/-- R118 and R231: the step machine and the function level agree. From any idle state with the command's frame at the port, the
instance takes exactly the counted number of steps, hands over exactly the response of the function level at the last of them and
none before, and is idle again with that frame taken. The steps before the last do not wait for the host; the last happens once the
host is ready to take the response, and it is already offered. A command that passes validation reaches COMPLETE with `W` the
remainder of what ISSUE loaded. -/
def Obligations.CommandReachesItsResponse : Prop :=
  ∀ (s : State) (i : Instr) (rest : List Beat), s.ph = .idle → s.rst = false → i.wf s.cfg = true →
    s.cmdIn = encodeCmd s.cfg i ++ rest →
    ∃ (u t : State) (r : Response), respondTo s.cfg i = some r ∧
      Core.run Sys2Proof.core (totalSteps s.cfg i - 1) s = .next u ∧ offered u = some r ∧
      step (u.setReady true) = .next t ∧ (s.rspReady = true → Core.run Sys2Proof.core (totalSteps s.cfg i) s = .next t) ∧
      t.ph = .idle ∧ t.rst = false ∧ t.cfg = s.cfg ∧ t.cmdIn = rest ∧ t.rspTaken = s.rspTaken ++ [r] ∧
      (∀ k, k < totalSteps s.cfg i → ∃ v : State, Core.run Sys2Proof.core k s = .next v ∧ v.rspTaken = s.rspTaken) ∧
      (startsDivision s.cfg i = true →
        ∃ v : State, Core.run Sys2Proof.core 1 s = .next v ∧ v.ph = .run ∧ totalSteps s.cfg i - 1 = 1 + divStepCount i ∧
          u.ph = .run ∧ u.w.length < u.g.length ∧ polyDivide v.w v.g = some u.w)

/-- R113, from the frame to the response: the operation code is `01`; a non-bit gives `MalformedInput`, an invalid divisor
`InvalidGenerator`, each in one step; else the raw remainder, `min(lenA, lenB - 1)` bits of it, after `max(0, lenA - lenB + 1) + 2`
steps, with `MSG` unchanged; and the worked example. The host is ready to take the response; CommandReachesItsResponse states it of a
slow host too. -/
def Obligations.DivReturnsTheRemainder : Prop :=
  (∀ (s : State) (rA rB : SymStr) (rest : List Beat), s.ph = .idle → s.rst = false → s.rspReady = true →
    Instr.wf s.cfg (.div rA rB) = true → s.cmdIn = encodeCmd s.cfg (.div rA rB) ++ rest →
    encodeHeader s.cfg (.div rA rB) % 4 = 1 ∧
    ((isBits rA && isBits rB) = false →
      step s = .next { s with cmdIn := rest, rspTaken := s.rspTaken ++ [⟨.malformedInput, false, []⟩], rspPart := [] }) ∧
    ∀ d g : BitStr, bits? rA = some d → bits? rB = some g →
      (validGen g = false →
        step s = .next { s with cmdIn := rest, rspTaken := s.rspTaken ++ [⟨.invalidGenerator, false, []⟩], rspPart := [] }) ∧
      (validGen g = true →
        ∃ r : BitStr, polyDivide d g = some r ∧ r.length = min rA.length (rB.length - 1) ∧
          Core.run Sys2Proof.core (rA.length + 1 - rB.length + 2) s =
            .next { s with opr := .div, w := r, g := g, cmdIn := rest, rspTaken := s.rspTaken ++ [⟨.ok, false, r⟩], rspPart := [] })) ∧
  polyDivide [true, false, false, true, false, false, false, false, false] [true, false, true, true] = some [true, false, true]

/-- R143, from the frame to the response: the operation code is `10`; a non-bit gives `MalformedInput`, an invalid generator
`InvalidGenerator`, each in one step; else the code word, `lenA + lenB - 1` bits of it, after `lenA + 2` steps; and the worked
example. The host is ready to take the response; CommandReachesItsResponse states it of a slow host too. -/
def Obligations.EncReturnsTheCodeWord : Prop :=
  (∀ (s : State) (rA rB : SymStr) (rest : List Beat), s.ph = .idle → s.rst = false → s.rspReady = true →
    Instr.wf s.cfg (.enc rA rB) = true → s.cmdIn = encodeCmd s.cfg (.enc rA rB) ++ rest →
    encodeHeader s.cfg (.enc rA rB) % 4 = 2 ∧
    ((isBits rA && isBits rB) = false →
      step s = .next { s with cmdIn := rest, rspTaken := s.rspTaken ++ [⟨.malformedInput, false, []⟩], rspPart := [] }) ∧
    ∀ m g : BitStr, bits? rA = some m → bits? rB = some g →
      (validGen g = false →
        step s = .next { s with cmdIn := rest, rspTaken := s.rspTaken ++ [⟨.invalidGenerator, false, []⟩], rspPart := [] }) ∧
      (validGen g = true →
        ∃ c r : BitStr, encode m g = some c ∧ c.length = rA.length + rB.length - 1 ∧ polyDivide (pad m g) g = some r ∧
          Core.run Sys2Proof.core (rA.length + 2) s =
            .next { s with opr := .enc, w := r, g := g, msg := m, cmdIn := rest, rspTaken := s.rspTaken ++ [⟨.ok, false, c⟩], rspPart := [] })) ∧
  encode [true, false, false, true, false, false] [true, false, true, true] = some [true, false, false, true, false, false, true, false, true]

/-- R163, from the frame to the response: the operation code is `11`; a non-bit gives `MalformedInput`, an invalid generator
`InvalidGenerator`, each in one step; else the verdict and no payload, after `max(0, lenA - lenB + 1) + 2` steps, with `MSG`
unchanged; and the worked examples. The host is ready to take the response; CommandReachesItsResponse states it of a slow host too. -/
def Obligations.VerReturnsTheVerdict : Prop :=
  (∀ (s : State) (rA rB : SymStr) (rest : List Beat), s.ph = .idle → s.rst = false → s.rspReady = true →
    Instr.wf s.cfg (.ver rA rB) = true → s.cmdIn = encodeCmd s.cfg (.ver rA rB) ++ rest →
    encodeHeader s.cfg (.ver rA rB) % 4 = 3 ∧
    ((isBits rA && isBits rB) = false →
      step s = .next { s with cmdIn := rest, rspTaken := s.rspTaken ++ [⟨.malformedInput, false, []⟩], rspPart := [] }) ∧
    ∀ c g : BitStr, bits? rA = some c → bits? rB = some g →
      (validGen g = false →
        step s = .next { s with cmdIn := rest, rspTaken := s.rspTaken ++ [⟨.invalidGenerator, false, []⟩], rspPart := [] }) ∧
      (validGen g = true →
        ∃ (v : Bool) (r : BitStr), verify c g = some v ∧ polyDivide c g = some r ∧
          Core.run Sys2Proof.core (rA.length + 1 - rB.length + 2) s =
            .next { s with opr := .ver, w := r, g := g, cmdIn := rest, rspTaken := s.rspTaken ++ [⟨.ok, v, []⟩], rspPart := [] })) ∧
  verify [true, false, false, true, false, false, true, false, true] [true, false, true, true] = some true ∧
  verify [true, false, false, true, false, false, true, true, false] [true, false, true, true] = some false

/-- R7 and R222: a host cannot tell two instances apart that differ only in registers no rule reads before writing them, for any number
of steps; so what an earlier command left behind, and what reset left unspecified, changes no response. -/
def Obligations.StaleRegistersUnobservable : Prop :=
  ∀ (k : Nat) (s t : State), s.Alike t → OutcomesAlike (Core.run Sys2Proof.core k s) (Core.run Sys2Proof.core k t)

/-- R197: a step of one instance depends on that instance alone and leaves every other as it was, and two steps of different instances
may be taken in either order. -/
def Obligations.InstancesShareNothing : Prop :=
  ∀ (sys sys' : Instances) (k : Fin sys.length), stepInstance sys k = .next sys' →
    (∃ t : State, step sys[k] = .next t ∧ sys' = sys.set k t) ∧
    (∀ j : Nat, j ≠ k.val → sys'[j]? = sys[j]?) ∧
    ∀ (j : Nat) (hj : j < sys.length) (hj' : j < sys'.length) (sys'' : Instances), j ≠ k.val →
      stepInstance sys ⟨j, hj⟩ = .next sys'' →
      ∃ (hk : k.val < sys''.length) (both : Instances),
        stepInstance sys' ⟨j, hj'⟩ = .next both ∧ stepInstance sys'' ⟨k.val, hk⟩ = .next both
end

