-- ==== Sys2Proof/Laws/Codec.lean ====
section
/-! SUPPORT. Lemmas about the codec: codes, fields of the header, the decoder as an equivalence, and what taking a frame leaves. -/

namespace Sys2Proof

@[simp] theorem Instr.mk_op (o : Op) (a b : SymStr) : (Instr.mk o a b).op = o := by cases o <;> rfl
@[simp] theorem Instr.mk_rA (o : Op) (a b : SymStr) : (Instr.mk o a b).rA = a := by cases o <;> rfl
@[simp] theorem Instr.mk_rB (o : Op) (a b : SymStr) : (Instr.mk o a b).rB = b := by cases o <;> rfl
@[simp] theorem Instr.mk_eta (i : Instr) : Instr.mk i.op i.rA i.rB = i := by cases i <;> rfl

theorem Op.code_lt (o : Op) : o.code < 4 := by cases o <;> decide

theorem symOfBeat_code {c : Config} {s : Sym} (h : c.symchk = true ∨ s ≠ .other) : symOfBeat c s.code = s := by
  cases s <;> cases hc : c.symchk <;> simp_all [symOfBeat, Sym.code]

theorem symOfBeat_bit {c : Config} (h : c.symchk = false) (v : Nat) : symOfBeat c v ≠ .other := by
  simp only [symOfBeat, h]; split <;> simp

theorem headerLenA_lt (c : Config) (h : Beat) : headerLenA c h < 2 ^ c.lenw := Nat.mod_lt _ (Nat.two_pow_pos _)
theorem headerLenB_lt (c : Config) (h : Beat) : headerLenB c h < 2 ^ c.lenw := Nat.mod_lt _ (Nat.two_pow_pos _)

theorem Config.le_lmax_iff (c : Config) (n : Nat) : n ≤ c.lmax ↔ n < 2 ^ c.lenw := by
  have := Nat.two_pow_pos c.lenw
  unfold Config.lmax; omega

theorem symStr_wf_iff (c : Config) (r : SymStr) :
    SymStr.wf c r = true ↔ r.length ≤ c.lmax ∧ (c.symchk = true ∨ ∀ s ∈ r, s ≠ .other) := by
  simp [SymStr.wf]

theorem instr_wf_iff (c : Config) (i : Instr) :
    i.wf c = true ↔ SymStr.wf c i.rA = true ∧ SymStr.wf c i.rB = true := by
  simp [Instr.wf]

/-- All that a whole frame at the front of the beats says. -/
theorem decodeCmd_eq_command {c : Config} {beats rest : List Beat} {i : Instr} :
    decodeCmd c beats = .command i rest ↔
      ∃ h body, beats = h :: body ∧ headerLenA c h + headerLenB c h ≤ body.length ∧
        i = Instr.mk (headerOp h) ((body.take (headerLenA c h)).map (symOfBeat c))
          (((body.drop (headerLenA c h)).take (headerLenB c h)).map (symOfBeat c)) ∧
        rest = body.drop (headerLenA c h + headerLenB c h) := by
  cases beats with
  | nil => simp [decodeCmd]
  | cons h body =>
    by_cases hl : headerLenA c h + headerLenB c h ≤ body.length
    · simp only [decodeCmd, if_pos hl, Decoded.command.injEq, List.cons.injEq]
      constructor
      · rintro ⟨rfl, rfl⟩; exact ⟨h, body, ⟨rfl, rfl⟩, hl, rfl, rfl⟩
      · rintro ⟨_, _, ⟨rfl, rfl⟩, _, rfl, rfl⟩; exact ⟨rfl, rfl⟩
    · simp only [decodeCmd, if_neg hl, List.cons.injEq]
      constructor
      · intro hc; cases hc
      · rintro ⟨_, _, ⟨rfl, rfl⟩, h', _⟩; exact absurd h' hl

/-- A decoded command is one that a frame of the instance can carry. -/
theorem decodeCmd_wf {c : Config} {beats rest : List Beat} {i : Instr} (h : decodeCmd c beats = .command i rest) :
    SymStr.wf c i.rA = true ∧ SymStr.wf c i.rB = true := by
  obtain ⟨hd, body, rfl, _, rfl, _⟩ := decodeCmd_eq_command.1 h
  have hs : ∀ l : List Beat, c.symchk = true ∨ ∀ x ∈ l.map (symOfBeat c), x ≠ .other := by
    intro l
    rcases Bool.eq_false_or_eq_true c.symchk with hc | hc
    · exact .inl hc
    · refine .inr fun x hx => ?_
      obtain ⟨v, _, rfl⟩ := List.mem_map.1 hx
      exact symOfBeat_bit hc v
  have h1 := headerLenA_lt c hd
  have h2 := headerLenB_lt c hd
  rw [symStr_wf_iff, symStr_wf_iff, Instr.mk_rA, Instr.mk_rB, Config.le_lmax_iff, Config.le_lmax_iff]
  exact ⟨⟨by simp only [List.length_map, List.length_take]; omega, hs _⟩,
    by simp only [List.length_map, List.length_take]; omega, hs _⟩

/-- A frame takes at least its header beat from the port. -/
theorem decodeCmd_rest_length {c : Config} {beats rest : List Beat} {i : Instr} (h : decodeCmd c beats = .command i rest) :
    rest.length < beats.length := by
  obtain ⟨hd, body, rfl, _, _, rfl⟩ := decodeCmd_eq_command.1 h
  simp only [List.length_drop, List.length_cons]; omega

/-- What the decoder leaves is the end of what was presented. -/
theorem decodeCmd_rest_suffix {c : Config} {beats rest : List Beat} {i : Instr} (h : decodeCmd c beats = .command i rest) :
    rest <:+ beats := by
  obtain ⟨hd, body, rfl, _, _, rfl⟩ := decodeCmd_eq_command.1 h
  exact (List.drop_suffix _ _).trans (List.suffix_cons _ _)

@[simp] theorem encodeCmd_length (c : Config) (i : Instr) :
    (encodeCmd c i).length = 1 + i.rA.length + i.rB.length := by
  simp only [encodeCmd, List.length_cons, List.length_append, List.length_map]; omega

namespace Machine

theorem fetch_eq_some {s s' : State} {i : Instr} :
    fetch s = some (i, s') ↔ ∃ rest, decodeCmd s.cfg s.cmdIn = .command i rest ∧ s' = s.withPort rest := by
  unfold fetch
  cases decodeCmd s.cfg s.cmdIn with
  | command j rest =>
    simp only [Option.some.injEq, Prod.mk.injEq, Decoded.command.injEq]
    constructor
    · rintro ⟨rfl, rfl⟩; exact ⟨rest, ⟨rfl, rfl⟩, rfl⟩
    · rintro ⟨r, ⟨rfl, rfl⟩, rfl⟩; exact ⟨rfl, rfl⟩
  | awaitHeader => simp
  | awaitBeats n => simp

/-- While a command is in flight, or where no response is partly sent, RESET keeps every whole frame at the port. -/
theorem portAfterReset_kept {s : State} (h : s.ph = .run ∨ s.rspPart = []) : portAfterReset s = wholeFrames s.cfg s.cmdIn := by
  unfold portAfterReset
  split
  · next hp hr _ => rcases h with h | h <;> simp_all
  · rfl

/-- An idle instance whose response is partly sent loses, at RESET, the frame that is being answered. -/
theorem portAfterReset_dropped {s : State} {i : Instr} {rest : List Beat} (hp : s.ph = .idle) (hr : s.rspPart ≠ [])
    (hd : decodeCmd s.cfg s.cmdIn = .command i rest) : portAfterReset s = wholeFrames s.cfg rest := by
  unfold portAfterReset
  cases hq : s.rspPart with
  | nil => exact absurd hq hr
  | cons b bs => simp only [hp, hd]

/-- With no whole frame at the port RESET has none to drop but the part of one. -/
theorem portAfterReset_partial {s : State} (hd : ∀ i rest, decodeCmd s.cfg s.cmdIn ≠ .command i rest) :
    portAfterReset s = wholeFrames s.cfg s.cmdIn := by
  unfold portAfterReset
  split
  · next hd' => exact absurd hd' (hd _ _)
  · rfl

end Machine

end Sys2Proof
end

