-- ==== Sys2Proof/Laws/Operands.lean ====
section
/-! SUPPORT. Lemmas about the operand forms: bits of raw operands, the generator check, padding and normalizing, and ISSUE's two checks. -/

namespace Sys2Proof

@[simp] theorem zeros_length (n : Nat) : (zeros n).length = n := by simp [zeros]
@[simp] theorem zeros_zero : zeros 0 = [] := rfl
theorem zeros_succ (n : Nat) : zeros (n + 1) = false :: zeros n := rfl
theorem zeros_add (m n : Nat) : zeros (m + n) = zeros m ++ zeros n := List.replicate_add ..

namespace Machine

@[simp] theorem bits?_nil : bits? [] = some [] := rfl

theorem bits?_cons (x : Sym) (r : SymStr) :
    bits? (x :: r) = (symBit x).bind fun b => (bits? r).map (b :: ·) := by
  cases x <;> cases h : bits? r <;> simp [bits?, symBit, h]

/-- `bits` is defined exactly on the operands without `other`. -/
theorem bits?_isSome (r : SymStr) : (bits? r).isSome = isBits r := by
  induction r with
  | nil => rfl
  | cons x r ih =>
    rw [bits?_cons]
    cases x <;> cases h : bits? r <;> simp_all [symBit, isBits]

theorem bits?_length {r : SymStr} {s : BitStr} (h : bits? r = some s) : s.length = r.length := by
  induction r generalizing s with
  | nil => cases h; rfl
  | cons x r ih =>
    rw [bits?_cons] at h
    cases x <;> cases hr : bits? r <;> simp_all [symBit]
    all_goals (subst h; simpa using ih)

theorem isBits_iff (r : SymStr) : isBits r = true ↔ Sym.other ∉ r := by
  simp only [isBits, List.all_eq_true, bne_iff_ne]
  exact ⟨fun h hm => h _ hm rfl, fun h x hx e => h (e ▸ hx)⟩

/-- The three answers of ISSUE's first check, each with the operands that give it. -/
theorem readOperands_cases (c : Config) (rA rB : SymStr) :
    (∃ a b, bits? rA = some a ∧ bits? rB = some b ∧ readOperands c rA rB = .bits a b) ∨
    ((isBits rA && isBits rB) = false ∧ c.symchk = true ∧ readOperands c rA rB = .malformed) ∨
    ((isBits rA && isBits rB) = false ∧ c.symchk = false ∧ readOperands c rA rB = .notPresentable) := by
  rw [← bits?_isSome rA, ← bits?_isSome rB]
  cases ha : bits? rA <;> cases hb : bits? rB <;> cases hc : c.symchk <;> simp [readOperands, ha, hb, hc]

theorem readOperands_of_bits {c : Config} {rA rB : SymStr} {a b : BitStr} (ha : bits? rA = some a) (hb : bits? rB = some b) :
    readOperands c rA rB = .bits a b := by
  simp [readOperands, ha, hb]

theorem validGen_iff (g : BitStr) : validGen g = true ↔ 2 ≤ g.length ∧ g.head? = some true := by
  rw [validGen, Bool.and_eq_true, decide_eq_true_eq, beq_iff_eq]; rfl

/-- A valid generator written out: a 1 and at least one more bit. -/
theorem validGen_exists {g : BitStr} (h : validGen g = true) : ∃ b t, g = true :: b :: t := by
  match g, (validGen_iff g).1 h with
  | x :: b :: t, ⟨_, hx⟩ => exact ⟨b, t, by simp at hx; rw [hx]⟩

theorem pad_length (m g : BitStr) : (pad m g).length = m.length + (g.length - 1) := by simp [pad]

theorem normBits_length {r : BitStr} {n : Nat} (h : r.length ≤ n) : (normBits r n).length = n := by
  simp only [normBits, List.length_append, zeros_length]; omega

/-- What ISSUE can answer at `PH = IDLE`, and the one answer at `PH = RUN`. -/
theorem issue_cases (s : State) (rA rB : SymStr) (go : BitStr → BitStr → State) :
    (s.ph = .run ∧ issue s rA rB go = .fault .issueNotEnabled) ∨
    (s.ph = .idle ∧ ∃ a b, bits? rA = some a ∧ bits? rB = some b ∧ issue s rA rB go = .next (go a b)) ∨
    (s.ph = .idle ∧ s.cfg.symchk = true ∧ (isBits rA && isBits rB) = false ∧
      issue s rA rB go = .next (s.takeError .malformedInput)) ∨
    (s.ph = .idle ∧ s.cfg.symchk = false ∧ (isBits rA && isBits rB) = false ∧
      issue s rA rB go = .refused .notPresentable) := by
  cases hp : s.ph with
  | run => exact .inl ⟨rfl, by simp [issue, hp]⟩
  | idle =>
    obtain ⟨a, b, ha, hb, hr⟩ | ⟨hx, hc, hr⟩ | ⟨hx, hc, hr⟩ := readOperands_cases s.cfg rA rB
    · exact .inr (.inl ⟨rfl, a, b, ha, hb, by simp [issue, hp, hr]⟩)
    · exact .inr (.inr (.inl ⟨rfl, hc, hx, by simp [issue, hp, hr]⟩))
    · exact .inr (.inr (.inr ⟨rfl, hc, hx, by simp [issue, hp, hr]⟩))

theorem issue_bits {s : State} {rA rB : SymStr} {a b : BitStr} (go : BitStr → BitStr → State) (hp : s.ph = .idle)
    (ha : bits? rA = some a) (hb : bits? rB = some b) : issue s rA rB go = .next (go a b) := by
  simp [issue, hp, readOperands_of_bits ha hb]

theorem issue_nonbits {s : State} {rA rB : SymStr} (go : BitStr → BitStr → State) (hp : s.ph = .idle)
    (hc : s.cfg.symchk = true) (hx : (isBits rA && isBits rB) = false) :
    issue s rA rB go = .next (s.takeError .malformedInput) := by
  obtain ⟨h, _⟩ | ⟨_, a, b, ha, hb, _⟩ | ⟨_, _, _, h⟩ | ⟨_, h, _⟩ := issue_cases s rA rB go
  · rw [hp] at h; cases h
  · rw [← bits?_isSome, ← bits?_isSome, ha, hb] at hx; cases hx
  · exact h
  · rw [hc] at h; cases h

@[simp] theorem checkGenerator_valid {g : BitStr} (h : validGen g = true) (s start : State) :
    checkGenerator s g start = start := by
  simp [checkGenerator, h]

@[simp] theorem checkGenerator_invalid {g : BitStr} (h : validGen g = false) (s start : State) :
    checkGenerator s g start = s.takeError .invalidGenerator := by
  simp [checkGenerator, h]

end Machine

end Sys2Proof
end

