-- ==== Sys2Proof/Laws/Division.lean ====
section
/-! SUPPORT. Lemmas about the exclusive or and the division loop. -/

namespace Sys2Proof.Machine

@[simp] theorem xorBits_nil_left (b : BitStr) : xorBits [] b = [] := by cases b <;> rfl
@[simp] theorem xorBits_nil_right (a : BitStr) : xorBits a [] = [] := by cases a <;> rfl
@[simp] theorem xorBits_cons (x y : Bit) (a b : BitStr) : xorBits (x :: a) (y :: b) = (x ^^ y) :: xorBits a b := rfl

theorem xorBits_eq_zipWith (a b : BitStr) : xorBits a b = List.zipWith xor a b := by
  induction a generalizing b with
  | nil => simp
  | cons x a ih => cases b with
    | nil => simp
    | cons y b => simp [ih]

/-- The division step's two operands have equal lengths wherever the step is defined (R102, R227). -/
theorem divStep_equal_lengths {w g w' : BitStr} (h : divStep w g = some w') : (w.take g.length).length = g.length := by
  simp only [divStep] at h
  split at h
  · next hc => simp at hc; simp [hc.2]
  · cases h

theorem divStep_one {g rest : BitStr} (hg : validGen g = true) (hl : g.length ≤ rest.length + 1) :
    divStep (true :: rest) g =
      some ((xorBits g ((true :: rest).take g.length)).tail ++ (true :: rest).drop g.length) := by
  simp [divStep, hg, hl]

theorem divStep_zero {g rest : BitStr} (hg : validGen g = true) (hl : g.length ≤ rest.length + 1) :
    divStep (false :: rest) g = some rest := by
  simp [divStep, hg, hl]

theorem divStep_invalid {w g : BitStr} (h : validGen g = false ∨ w.length < g.length) : divStep w g = none := by
  simp only [divStep]
  split
  · next hc => simp only [Bool.and_eq_true, decide_eq_true_eq] at hc; rcases h with h | h
               · simp [h] at hc
               · omega
  · rfl

/-- Where the step is defined it answers, and drops one bit. -/
theorem divStep_isSome {w g : BitStr} (hg : validGen g = true) (hl : g.length ≤ w.length) :
    ∃ w', divStep w g = some w' ∧ w'.length + 1 = w.length := by
  have h2 := (validGen_iff g).1 hg
  cases w with
  | nil => simp at hl; simp [hl] at h2
  | cons b rest =>
    cases b with
    | false => exact ⟨rest, divStep_zero hg hl, rfl⟩
    | true =>
      refine ⟨_, divStep_one hg hl, ?_⟩
      have hx : (xorBits g ((true :: rest).take g.length)).length = g.length := by
        rw [xorBits_eq_zipWith, List.length_zipWith, List.length_take]; simp at hl ⊢; omega
      simp only [List.length_append, List.length_tail, List.length_drop, hx, List.length_cons] at hl ⊢
      omega

/-- The loop's answer does not depend on spare iterations. -/
theorem divLoop_fuel {g : BitStr} (hg : validGen g = true) :
    ∀ (n m : Nat) (w : BitStr), w.length ≤ n → w.length ≤ m → divLoop n w g = divLoop m w g := by
  have h2 := ((validGen_iff g).1 hg).1
  intro n
  induction n with
  | zero =>
    intro m w hn _
    have hw : w.length < g.length := by omega
    cases m <;> simp [divLoop, hw]
  | succ n ih =>
    intro m w hn hm
    by_cases hw : w.length < g.length
    · cases m <;> simp [divLoop, hw]
    · obtain ⟨w', hs, hl⟩ := divStep_isSome hg (Nat.le_of_not_lt hw)
      cases m with
      | zero => omega
      | succ m => simp only [divLoop, hw, if_false, hs, Option.bind_some]; exact ih m w' (by omega) (by omega)

/-- A dividend shorter than the generator is its own remainder. -/
theorem polyDivide_short {d g : BitStr} (hg : validGen g = true) (hl : d.length < g.length) : polyDivide d g = some d := by
  cases hd : d.length <;> simp [polyDivide, hg, divLoop, hd, hd ▸ hl]

/-- One iteration of the loop. -/
theorem polyDivide_step {d g w : BitStr} (hs : divStep d g = some w) : polyDivide d g = polyDivide w g := by
  have hg : validGen g = true := by
    by_contra hv
    simp [divStep_invalid (w := d) (.inl (by simpa using hv))] at hs
  have hl : g.length ≤ d.length := by
    by_contra hv
    simp [divStep_invalid (g := g) (.inr (Nat.lt_of_not_le hv))] at hs
  obtain ⟨w', hs', hw⟩ := divStep_isSome hg hl
  obtain rfl : w' = w := by simpa [hs'] using hs
  have hlt : ¬ d.length < g.length := by omega
  simp only [polyDivide, hg, if_true]
  rw [← hw]
  simp only [divLoop, hlt, if_false, hs, Option.bind_some]

theorem divIter_succ (n : Nat) (w g : BitStr) : divIter (n + 1) w g = (divStep w g).bind fun w' => divIter n w' g := rfl

end Sys2Proof.Machine
end

