-- ==== Sys2Proof/Laws/PerInstr.lean ====
section
/-! SUPPORT. The statement made of every instruction: the shape of its frame (R75, R77). -/

namespace Sys2Proof.Laws

/-- The frame of a command has one header beat and one beat per symbol (R75), the header's two low bits are the operation code (R76),
and the payload beats are the symbol codes of `rA` and then of `rB` (R78). -/
def FrameShape.Statement (i : Instr) : Prop :=
  ∀ c : Config, (encodeCmd c i).length = 1 + i.rA.length + i.rB.length ∧
    (encodeHeader c i) % 4 = i.op.code ∧ (encodeCmd c i).tail = i.rA.map Sym.code ++ i.rB.map Sym.code

/-- The frame's shape, for any command. -/
theorem frame_shape (i : Instr) : FrameShape.Statement i := by
  intro c
  refine ⟨encodeCmd_length c i, ?_, rfl⟩
  have h : (2 ^ (c.lenw + 2) * i.rB.length) % 4 = 0 := by
    rw [pow_add, Nat.mul_assoc, Nat.mul_left_comm]; exact Nat.mul_mod_right 4 _
  have := Op.code_lt i.op
  unfold encodeHeader
  generalize 2 ^ (c.lenw + 2) * i.rB.length = y at h ⊢
  omega

theorem FrameShape.xor (rA rB : SymStr) : FrameShape.Statement (.xor rA rB) := frame_shape _
theorem FrameShape.div (rA rB : SymStr) : FrameShape.Statement (.div rA rB) := frame_shape _
theorem FrameShape.enc (rA rB : SymStr) : FrameShape.Statement (.enc rA rB) := frame_shape _
theorem FrameShape.ver (rA rB : SymStr) : FrameShape.Statement (.ver rA rB) := frame_shape _

end Sys2Proof.Laws
end

