-- ==== Sys2Proof/Laws/State.lean ====
section
/-! SUPPORT. What each named update of the state leaves in each field, so that no later proof unfolds a record update. -/

namespace Sys2Proof.Machine

@[simp] theorem respond_cfg (s : State) (r : Response) : (s.respond r).cfg = s.cfg := rfl
@[simp] theorem respond_ph (s : State) (r : Response) : (s.respond r).ph = s.ph := rfl
@[simp] theorem respond_opr (s : State) (r : Response) : (s.respond r).opr = s.opr := rfl
@[simp] theorem respond_w (s : State) (r : Response) : (s.respond r).w = s.w := rfl
@[simp] theorem respond_g (s : State) (r : Response) : (s.respond r).g = s.g := rfl
@[simp] theorem respond_msg (s : State) (r : Response) : (s.respond r).msg = s.msg := rfl
@[simp] theorem respond_cmdIn (s : State) (r : Response) : (s.respond r).cmdIn = s.cmdIn := rfl
@[simp] theorem respond_rspTaken (s : State) (r : Response) : (s.respond r).rspTaken = s.rspTaken ++ [r] := rfl
@[simp] theorem respond_rspPart (s : State) (r : Response) : (s.respond r).rspPart = [] := rfl
@[simp] theorem respond_rspReady (s : State) (r : Response) : (s.respond r).rspReady = s.rspReady := rfl
@[simp] theorem respond_rst (s : State) (r : Response) : (s.respond r).rst = s.rst := rfl
@[simp] theorem respond_fresh (s : State) (r : Response) : (s.respond r).fresh = s.fresh := rfl

@[simp] theorem takeError_cfg (s : State) (e : CrcError) : (s.takeError e).cfg = s.cfg := rfl
@[simp] theorem takeError_ph (s : State) (e : CrcError) : (s.takeError e).ph = s.ph := rfl
@[simp] theorem takeError_opr (s : State) (e : CrcError) : (s.takeError e).opr = s.opr := rfl
@[simp] theorem takeError_w (s : State) (e : CrcError) : (s.takeError e).w = s.w := rfl
@[simp] theorem takeError_g (s : State) (e : CrcError) : (s.takeError e).g = s.g := rfl
@[simp] theorem takeError_msg (s : State) (e : CrcError) : (s.takeError e).msg = s.msg := rfl
@[simp] theorem takeError_cmdIn (s : State) (e : CrcError) : (s.takeError e).cmdIn = s.cmdIn := rfl
@[simp] theorem takeError_rspTaken (s : State) (e : CrcError) : (s.takeError e).rspTaken = s.rspTaken ++ [Response.error e] := rfl
@[simp] theorem takeError_rspPart (s : State) (e : CrcError) : (s.takeError e).rspPart = [] := rfl
@[simp] theorem takeError_rspReady (s : State) (e : CrcError) : (s.takeError e).rspReady = s.rspReady := rfl
@[simp] theorem takeError_rst (s : State) (e : CrcError) : (s.takeError e).rst = s.rst := rfl
@[simp] theorem takeError_fresh (s : State) (e : CrcError) : (s.takeError e).fresh = s.fresh := rfl

@[simp] theorem loadDivision_cfg (s : State) (o : Opr) (g w : BitStr) : (s.loadDivision o g w).cfg = s.cfg := rfl
@[simp] theorem loadDivision_ph (s : State) (o : Opr) (g w : BitStr) : (s.loadDivision o g w).ph = .run := rfl
@[simp] theorem loadDivision_opr (s : State) (o : Opr) (g w : BitStr) : (s.loadDivision o g w).opr = o := rfl
@[simp] theorem loadDivision_w (s : State) (o : Opr) (g w : BitStr) : (s.loadDivision o g w).w = w := rfl
@[simp] theorem loadDivision_g (s : State) (o : Opr) (g w : BitStr) : (s.loadDivision o g w).g = g := rfl
@[simp] theorem loadDivision_msg (s : State) (o : Opr) (g w : BitStr) : (s.loadDivision o g w).msg = s.msg := rfl
@[simp] theorem loadDivision_cmdIn (s : State) (o : Opr) (g w : BitStr) : (s.loadDivision o g w).cmdIn = s.cmdIn := rfl
@[simp] theorem loadDivision_rspTaken (s : State) (o : Opr) (g w : BitStr) : (s.loadDivision o g w).rspTaken = s.rspTaken := rfl
@[simp] theorem loadDivision_rspPart (s : State) (o : Opr) (g w : BitStr) : (s.loadDivision o g w).rspPart = s.rspPart := rfl
@[simp] theorem loadDivision_rspReady (s : State) (o : Opr) (g w : BitStr) : (s.loadDivision o g w).rspReady = s.rspReady := rfl
@[simp] theorem loadDivision_rst (s : State) (o : Opr) (g w : BitStr) : (s.loadDivision o g w).rst = s.rst := rfl
@[simp] theorem loadDivision_fresh (s : State) (o : Opr) (g w : BitStr) : (s.loadDivision o g w).fresh = s.fresh := rfl

@[simp] theorem withPort_cfg (s : State) (b : List Beat) : (s.withPort b).cfg = s.cfg := rfl
@[simp] theorem withPort_ph (s : State) (b : List Beat) : (s.withPort b).ph = s.ph := rfl
@[simp] theorem withPort_opr (s : State) (b : List Beat) : (s.withPort b).opr = s.opr := rfl
@[simp] theorem withPort_w (s : State) (b : List Beat) : (s.withPort b).w = s.w := rfl
@[simp] theorem withPort_g (s : State) (b : List Beat) : (s.withPort b).g = s.g := rfl
@[simp] theorem withPort_msg (s : State) (b : List Beat) : (s.withPort b).msg = s.msg := rfl
@[simp] theorem withPort_cmdIn (s : State) (b : List Beat) : (s.withPort b).cmdIn = b := rfl
@[simp] theorem withPort_rspTaken (s : State) (b : List Beat) : (s.withPort b).rspTaken = s.rspTaken := rfl
@[simp] theorem withPort_rspPart (s : State) (b : List Beat) : (s.withPort b).rspPart = s.rspPart := rfl
@[simp] theorem withPort_rspReady (s : State) (b : List Beat) : (s.withPort b).rspReady = s.rspReady := rfl
@[simp] theorem withPort_rst (s : State) (b : List Beat) : (s.withPort b).rst = s.rst := rfl
@[simp] theorem withPort_fresh (s : State) (b : List Beat) : (s.withPort b).fresh = s.fresh := rfl

@[simp] theorem present_cfg (s : State) (b : List Beat) : (s.present b).cfg = s.cfg := rfl
@[simp] theorem present_ph (s : State) (b : List Beat) : (s.present b).ph = s.ph := rfl
@[simp] theorem present_opr (s : State) (b : List Beat) : (s.present b).opr = s.opr := rfl
@[simp] theorem present_w (s : State) (b : List Beat) : (s.present b).w = s.w := rfl
@[simp] theorem present_g (s : State) (b : List Beat) : (s.present b).g = s.g := rfl
@[simp] theorem present_msg (s : State) (b : List Beat) : (s.present b).msg = s.msg := rfl
@[simp] theorem present_cmdIn (s : State) (b : List Beat) : (s.present b).cmdIn = s.cmdIn ++ b := rfl
@[simp] theorem present_rspTaken (s : State) (b : List Beat) : (s.present b).rspTaken = s.rspTaken := rfl
@[simp] theorem present_rspPart (s : State) (b : List Beat) : (s.present b).rspPart = s.rspPart := rfl
@[simp] theorem present_rspReady (s : State) (b : List Beat) : (s.present b).rspReady = s.rspReady := rfl
@[simp] theorem present_rst (s : State) (b : List Beat) : (s.present b).rst = s.rst := rfl
@[simp] theorem present_fresh (s : State) (b : List Beat) : (s.present b).fresh = s.fresh := rfl

@[simp] theorem assertReset_cfg (s : State) : (s.assertReset).cfg = s.cfg := rfl
@[simp] theorem assertReset_ph (s : State) : (s.assertReset).ph = s.ph := rfl
@[simp] theorem assertReset_opr (s : State) : (s.assertReset).opr = s.opr := rfl
@[simp] theorem assertReset_w (s : State) : (s.assertReset).w = s.w := rfl
@[simp] theorem assertReset_g (s : State) : (s.assertReset).g = s.g := rfl
@[simp] theorem assertReset_msg (s : State) : (s.assertReset).msg = s.msg := rfl
@[simp] theorem assertReset_cmdIn (s : State) : (s.assertReset).cmdIn = s.cmdIn := rfl
@[simp] theorem assertReset_rspTaken (s : State) : (s.assertReset).rspTaken = s.rspTaken := rfl
@[simp] theorem assertReset_rspPart (s : State) : (s.assertReset).rspPart = s.rspPart := rfl
@[simp] theorem assertReset_rspReady (s : State) : (s.assertReset).rspReady = s.rspReady := rfl
@[simp] theorem assertReset_rst (s : State) : (s.assertReset).rst = true := rfl
@[simp] theorem assertReset_fresh (s : State) : (s.assertReset).fresh = s.fresh := rfl

@[simp] theorem applyReset_cfg (s : State) : (applyReset s).cfg = s.cfg := rfl
@[simp] theorem applyReset_ph (s : State) : (applyReset s).ph = .idle := rfl
@[simp] theorem applyReset_opr (s : State) : (applyReset s).opr = Config.freeOpr s.fresh := rfl
@[simp] theorem applyReset_w (s : State) : (applyReset s).w = Config.freeW s.fresh := rfl
@[simp] theorem applyReset_g (s : State) : (applyReset s).g = Config.freeG s.fresh := rfl
@[simp] theorem applyReset_msg (s : State) : (applyReset s).msg = Config.freeMsg s.fresh := rfl
@[simp] theorem applyReset_cmdIn (s : State) : (applyReset s).cmdIn = portAfterReset s := rfl
@[simp] theorem applyReset_rspTaken (s : State) : (applyReset s).rspTaken = s.rspTaken := rfl
@[simp] theorem applyReset_rspPart (s : State) : (applyReset s).rspPart = [] := rfl
@[simp] theorem applyReset_rspReady (s : State) : (applyReset s).rspReady = s.rspReady := rfl
@[simp] theorem applyReset_rst (s : State) : (applyReset s).rst = false := rfl
@[simp] theorem applyReset_fresh (s : State) : (applyReset s).fresh = s.fresh + 1 := rfl

@[simp] theorem complete_cfg (s : State) : (complete s).cfg = s.cfg := rfl
@[simp] theorem complete_ph (s : State) : (complete s).ph = .idle := rfl
@[simp] theorem complete_opr (s : State) : (complete s).opr = s.opr := rfl
@[simp] theorem complete_w (s : State) : (complete s).w = s.w := rfl
@[simp] theorem complete_g (s : State) : (complete s).g = s.g := rfl
@[simp] theorem complete_msg (s : State) : (complete s).msg = s.msg := rfl
@[simp] theorem complete_cmdIn (s : State) : (complete s).cmdIn = s.cmdIn := rfl
@[simp] theorem complete_rspTaken (s : State) : (complete s).rspTaken = s.rspTaken ++ [completionResponse s] := rfl
@[simp] theorem complete_rspPart (s : State) : (complete s).rspPart = [] := rfl
@[simp] theorem complete_rspReady (s : State) : (complete s).rspReady = s.rspReady := rfl
@[simp] theorem complete_rst (s : State) : (complete s).rst = s.rst := rfl
@[simp] theorem complete_fresh (s : State) : (complete s).fresh = s.fresh := rfl

@[simp] theorem placeTableFrame_cfg (s : State) (n v : Nat) : (placeTableFrame s n v).cfg = Config.table := rfl
@[simp] theorem placeTableFrame_ph (s : State) (n v : Nat) : (placeTableFrame s n v).ph = .idle := rfl
@[simp] theorem placeTableFrame_opr (s : State) (n v : Nat) : (placeTableFrame s n v).opr = s.opr := rfl
@[simp] theorem placeTableFrame_w (s : State) (n v : Nat) : (placeTableFrame s n v).w = s.w := rfl
@[simp] theorem placeTableFrame_g (s : State) (n v : Nat) : (placeTableFrame s n v).g = s.g := rfl
@[simp] theorem placeTableFrame_msg (s : State) (n v : Nat) : (placeTableFrame s n v).msg = s.msg := rfl
@[simp] theorem placeTableFrame_cmdIn (s : State) (n v : Nat) : (placeTableFrame s n v).cmdIn = tableBeats n v ++ s.cmdIn := rfl
@[simp] theorem placeTableFrame_rspTaken (s : State) (n v : Nat) : (placeTableFrame s n v).rspTaken = s.rspTaken := rfl
@[simp] theorem placeTableFrame_rspPart (s : State) (n v : Nat) : (placeTableFrame s n v).rspPart = s.rspPart := rfl
@[simp] theorem placeTableFrame_rspReady (s : State) (n v : Nat) : (placeTableFrame s n v).rspReady = true := rfl
@[simp] theorem placeTableFrame_rst (s : State) (n v : Nat) : (placeTableFrame s n v).rst = false := rfl
@[simp] theorem placeTableFrame_fresh (s : State) (n v : Nat) : (placeTableFrame s n v).fresh = s.fresh := rfl

@[simp] theorem setReady_cfg (s : State) (b : Bool) : (s.setReady b).cfg = s.cfg := rfl
@[simp] theorem setReady_ph (s : State) (b : Bool) : (s.setReady b).ph = s.ph := rfl
@[simp] theorem setReady_opr (s : State) (b : Bool) : (s.setReady b).opr = s.opr := rfl
@[simp] theorem setReady_w (s : State) (b : Bool) : (s.setReady b).w = s.w := rfl
@[simp] theorem setReady_g (s : State) (b : Bool) : (s.setReady b).g = s.g := rfl
@[simp] theorem setReady_msg (s : State) (b : Bool) : (s.setReady b).msg = s.msg := rfl
@[simp] theorem setReady_cmdIn (s : State) (b : Bool) : (s.setReady b).cmdIn = s.cmdIn := rfl
@[simp] theorem setReady_rspTaken (s : State) (b : Bool) : (s.setReady b).rspTaken = s.rspTaken := rfl
@[simp] theorem setReady_rspPart (s : State) (b : Bool) : (s.setReady b).rspPart = s.rspPart := rfl
@[simp] theorem setReady_rspReady (s : State) (b : Bool) : (s.setReady b).rspReady = b := rfl
@[simp] theorem setReady_rst (s : State) (b : Bool) : (s.setReady b).rst = s.rst := rfl
@[simp] theorem setReady_fresh (s : State) (b : Bool) : (s.setReady b).fresh = s.fresh := rfl

@[simp] theorem readTaken_cfg (s : State) : (s.readTaken.2).cfg = s.cfg := rfl
@[simp] theorem readTaken_ph (s : State) : (s.readTaken.2).ph = s.ph := rfl
@[simp] theorem readTaken_opr (s : State) : (s.readTaken.2).opr = s.opr := rfl
@[simp] theorem readTaken_w (s : State) : (s.readTaken.2).w = s.w := rfl
@[simp] theorem readTaken_g (s : State) : (s.readTaken.2).g = s.g := rfl
@[simp] theorem readTaken_msg (s : State) : (s.readTaken.2).msg = s.msg := rfl
@[simp] theorem readTaken_cmdIn (s : State) : (s.readTaken.2).cmdIn = s.cmdIn := rfl
@[simp] theorem readTaken_rspTaken (s : State) : (s.readTaken.2).rspTaken = [] := rfl
@[simp] theorem readTaken_rspPart (s : State) : (s.readTaken.2).rspPart = s.rspPart := rfl
@[simp] theorem readTaken_rspReady (s : State) : (s.readTaken.2).rspReady = s.rspReady := rfl
@[simp] theorem readTaken_rst (s : State) : (s.readTaken.2).rst = s.rst := rfl
@[simp] theorem readTaken_fresh (s : State) : (s.readTaken.2).fresh = s.fresh := rfl

@[simp] theorem resetWith_ph (c : Config) : (State.resetWith c).ph = .idle := rfl
@[simp] theorem resetWith_cfg (c : Config) : (State.resetWith c).cfg = c := rfl
@[simp] theorem resetWith_rspTaken (c : Config) : (State.resetWith c).rspTaken = [] := rfl
@[simp] theorem resetWith_rspPart (c : Config) : (State.resetWith c).rspPart = [] := rfl
@[simp] theorem resetWith_rspReady (c : Config) : (State.resetWith c).rspReady = true := rfl
@[simp] theorem resetWith_cmdIn (c : Config) : (State.resetWith c).cmdIn = [] := rfl
@[simp] theorem resetWith_rst (c : Config) : (State.resetWith c).rst = false := rfl

end Sys2Proof.Machine
end

