-- ==== Sys2Proof/Laws/Step.lean ====
section
/-! SUPPORT. What one step can do, said once, and runs of steps. -/

namespace Sys2Proof.Machine

/-- What starting the operation `o` on bits `a`, `b` leaves (R33): an `XOR` answered, a division loaded, or a bad generator reported. -/
def issued (s : State) : Op → BitStr → BitStr → State
  | .xor, a, b => s.respond (Response.okBits (xorBits a b))
  | .div, d, g => checkGenerator s g (s.loadDivision .div g d)
  | .enc, m, g => checkGenerator s g ({ s with msg := m }.loadDivision .enc g (pad m g))
  | .ver, c, g => checkGenerator s g (s.loadDivision .ver g c)

theorem exec_eq_issue (i : Instr) (s : State) : exec i s = issue s i.rA i.rB (issued s i.op) := by
  cases i <;> rfl

/-- Everything ISSUE can answer with a next state: an error, or its operation started on the bits of the operands. -/
theorem exec_next_cases {i : Instr} {s t : State} (h : exec i s = .next t) :
    s.ph = .idle ∧
      ((s.cfg.symchk = true ∧ (isBits i.rA && isBits i.rB) = false ∧ t = s.takeError .malformedInput) ∨
        ∃ a b, bits? i.rA = some a ∧ bits? i.rB = some b ∧ t = issued s i.op a b) := by
  rw [exec_eq_issue] at h
  obtain ⟨_, he⟩ | ⟨hp, a, b, ha, hb, he⟩ | ⟨hp, hc, hx, he⟩ | ⟨_, _, _, he⟩ := issue_cases s i.rA i.rB (issued s i.op)
  · simp [he] at h
  · rw [he] at h; cases h; exact ⟨hp, .inr ⟨a, b, ha, hb, rfl⟩⟩
  · rw [he] at h; cases h; exact ⟨hp, .inl ⟨hc, hx, rfl⟩⟩
  · simp [he] at h

/-- The states an operation can start into. -/
theorem issued_cases (s : State) (o : Op) (a b : BitStr) :
    (o = .xor ∧ issued s o a b = s.respond (Response.okBits (xorBits a b))) ∨
    (o ≠ .xor ∧ validGen b = false ∧ issued s o a b = s.takeError .invalidGenerator) ∨
    (o = .div ∧ validGen b = true ∧ issued s o a b = s.loadDivision .div b a) ∨
    (o = .enc ∧ validGen b = true ∧ issued s o a b = { s with msg := a }.loadDivision .enc b (pad a b)) ∨
    (o = .ver ∧ validGen b = true ∧ issued s o a b = s.loadDivision .ver b a) := by
  cases o <;> cases hv : validGen b <;> simp [issued, hv]

/-- Everything `advance` can answer with a next state: COMPLETE or DIVSTEP. -/
theorem advance_next_cases {s t : State} (h : advance s = .next t) :
    (s.w.length < s.g.length ∧ t = complete s) ∨
      (s.g.length ≤ s.w.length ∧ ∃ w', divStep s.w s.g = some w' ∧ t = { s with w := w' }) := by
  unfold advance at h
  split at h
  · next hl => cases h; exact .inl ⟨hl, rfl⟩
  · next hl =>
    unfold divStepStep at h
    split at h
    · next w' hs => cases h; exact .inr ⟨Nat.le_of_not_lt hl, w', hs, rfl⟩
    · cases h

/-! ## The response port -/

/-- What a command in flight offers: COMPLETE's response once the loop has ended, and nothing before. -/
theorem offered_run {s : State} (hp : s.ph = .run) :
    offered s = if s.w.length < s.g.length then some (completionResponse s) else none := by simp [offered, hp]

theorem offered_idle {s : State} (hp : s.ph = .idle) {i : Instr} {rest : List Beat}
    (hd : decodeCmd s.cfg s.cmdIn = .command i rest) : offered s = issueResponse s.cfg i := by
  simp [offered, hp, fetch, hd]

theorem offered_wait {s : State} (hp : s.ph = .idle) (hf : fetch s = none) : offered s = none := by simp [offered, hp, hf]

/-- Where `issueResponse` names a response, ISSUE hands over that response and does nothing else. -/
theorem exec_of_issueResponse {s : State} {i : Instr} {r : Response} (hp : s.ph = .idle) (h : issueResponse s.cfg i = some r) :
    exec i s = .next (s.respond r) := by
  rw [exec_eq_issue]
  obtain ⟨a, b, ha, hb, hr⟩ | ⟨hx, hc, hr⟩ | ⟨hx, hc, hr⟩ := readOperands_cases s.cfg i.rA i.rB
  · rw [issue_bits _ hp ha hb]
    simp only [issueResponse, hr] at h
    cases ho : i.op <;> cases hv : validGen b <;> simp_all [issued, State.takeError]
  · rw [issue_nonbits _ hp hc hx]
    simp only [issueResponse, hr, Option.some.injEq] at h
    rw [← h]; rfl
  · simp [issueResponse, hr] at h

/-- An ISSUE that hands no response over and does not stop has started a division. -/
theorem exec_of_issueResponse_none {s t : State} {i : Instr} (hr : issueResponse s.cfg i = none) (h : exec i s = .next t) :
    t.ph = .run ∧ t.rspTaken = s.rspTaken ∧ t.rspPart = s.rspPart := by
  obtain ⟨_, ⟨hc, hx, rfl⟩ | ⟨a, b, ha, hb, rfl⟩⟩ := exec_next_cases h
  · obtain ⟨a, b, ha, hb, _⟩ | ⟨_, _, ho⟩ | ⟨_, hc', _⟩ := readOperands_cases s.cfg i.rA i.rB
    · rw [← bits?_isSome, ← bits?_isSome, ha, hb] at hx; cases hx
    · simp [issueResponse, ho] at hr
    · rw [hc] at hc'; cases hc'
  · simp only [issueResponse, readOperands_of_bits ha hb] at hr
    obtain ⟨ho, _⟩ | ⟨ho, hv, _⟩ | ⟨_, _, he⟩ | ⟨_, _, he⟩ | ⟨_, _, he⟩ := issued_cases s i.op a b
    · simp [ho] at hr
    · cases hop : i.op <;> simp_all
    all_goals rw [he]; exact ⟨rfl, rfl, rfl⟩

/-- The wait on a slow host, whole: no readiness, and a response for the next step to hand over. -/
theorem waitsForHost_iff (s : State) : waitsForHost s = true ↔ s.rspReady = false ∧ (offered s).isSome = true := by
  simp [waitsForHost]

theorem not_waitsForHost {s : State} (h : s.rspReady = true ∨ offered s = none) : waitsForHost s = false := by
  rcases h with h | h <;> simp [waitsForHost, h]

@[simp] theorem setReady_waitsForHost (s : State) : waitsForHost (s.setReady true) = false := by simp [waitsForHost]

/-- Which response is offered depends on the parameters, the phase, the command port, and on the registers of the command in flight. -/
theorem offered_congr {s t : State} (hc : s.cfg = t.cfg) (hp : s.ph = t.ph) (hi : s.cmdIn = t.cmdIn)
    (hrun : s.ph = .run → s.opr = t.opr ∧ s.w = t.w ∧ s.g = t.g ∧ (s.opr = .enc → s.msg = t.msg)) : offered s = offered t := by
  cases h : s.ph with
  | run =>
    obtain ⟨ho, hw, hg, hm⟩ := hrun h
    rw [offered_run h, offered_run (hp ▸ h), hw, hg]
    simp only [completionResponse, ← ho, hw, hg]
    cases hop : s.opr <;> simp_all
  | idle =>
    simp only [offered, h, ← hp, fetch, ← hc, ← hi]
    cases decodeCmd s.cfg s.cmdIn <;> rfl

@[simp] theorem setReady_offered (s : State) (b : Bool) : offered (s.setReady b) = offered s :=
  offered_congr rfl rfl rfl fun _ => ⟨rfl, rfl, rfl, fun _ => rfl⟩

/-- Everything the host's receiving of beats can do. -/
theorem receive_eq (s : State) (n : Nat) : s.receive n = s ∨
    ∃ r, offered s = some r ∧ s.receive n = { s with rspPart := (encodeRsp r).take (min (s.rspPart.length + n) r.rlen) } := by
  cases h : offered s with
  | none => exact .inl (by simp [State.receive, h])
  | some r => exact .inr ⟨r, rfl, by simp [State.receive, h]⟩

/-- Receiving beats keeps a partly sent frame the front of the response offered, short of its last beat. -/
theorem receive_partInv {s : State} (h : s.PartInv) (n : Nat) : (s.receive n).PartInv := by
  obtain he | ⟨r, ho, he⟩ := receive_eq s n
  · rwa [he]
  · rw [he]
    intro _
    refine ⟨r, ?_, List.take_prefix _ _, ?_⟩
    · rw [← ho]; exact offered_congr rfl rfl rfl fun _ => ⟨rfl, rfl, rfl, fun _ => rfl⟩
    · simp [encodeRsp, Response.rlen]

/-! ## One step -/

theorem step_reset {s : State} (h : s.rst = true) : step s = .next (applyReset s) := by simp [step, h]

theorem step_slow {s : State} (h : s.rst = false) (hw : waitsForHost s = true) : step s = .next s := by simp [step, h, hw]

theorem step_run {s : State} (h : s.rst = false) (hw : waitsForHost s = false) (hp : s.ph = .run) : step s = advance s := by
  simp [step, h, hw, hp]

theorem step_issue {s s' : State} {i : Instr} (h : s.rst = false) (hw : waitsForHost s = false) (hp : s.ph = .idle)
    (hf : fetch s = some (i, s')) : step s = exec i s' := by simp [step, h, hw, hp, hf]

theorem step_wait {s : State} (h : s.rst = false) (hp : s.ph = .idle) (hf : fetch s = none) : step s = .next s := by
  simp [step, h, hp, hf, waitsForHost, offered_wait hp hf]

/-- The step that hands over the response offered, once the host is ready: the hand-over, and the phase is idle. -/
theorem step_hands_over {s : State} {r : Response} (h : s.rst = false) (hr : s.rspReady = true) (ho : offered s = some r) :
    ∃ t, step s = .next t ∧ t.rspTaken = s.rspTaken ++ [r] ∧ t.rspPart = [] ∧ t.ph = .idle := by
  have hw := not_waitsForHost (.inl hr)
  cases hp : s.ph with
  | run =>
    rw [step_run h hw hp, advance]
    rw [offered_run hp] at ho
    split at ho
    · next hl => cases ho; rw [if_pos hl]; exact ⟨_, rfl, rfl, rfl, rfl⟩
    · cases ho
  | idle =>
    cases hf : fetch s with
    | none => rw [offered_wait hp hf] at ho; cases ho
    | some q =>
      obtain ⟨i, s'⟩ := q
      obtain ⟨rest, hd, rfl⟩ := fetch_eq_some.1 hf
      rw [offered_idle hp hd] at ho
      rw [step_issue h hw hp hf, exec_of_issueResponse (s := s.withPort rest) hp ho]
      exact ⟨_, rfl, rfl, rfl, hp⟩

theorem phase_cases (s : State) : s.ph = .run ∨ s.ph = .idle := by
  cases s.ph
  · exact .inr rfl
  · exact .inl rfl

/-- Everything a step can do (R37, R229). -/
theorem step_next_cases {s t : State} (h : step s = .next t) :
    (s.rst = true ∧ t = applyReset s) ∨
    (s.rst = false ∧ waitsForHost s = true ∧ t = s) ∨
    (s.rst = false ∧ waitsForHost s = false ∧ s.ph = .run ∧ s.w.length < s.g.length ∧ t = complete s) ∨
    (s.rst = false ∧ waitsForHost s = false ∧ s.ph = .run ∧ s.g.length ≤ s.w.length ∧
      ∃ w', divStep s.w s.g = some w' ∧ t = { s with w := w' }) ∨
    (s.rst = false ∧ waitsForHost s = false ∧ s.ph = .idle ∧ fetch s = none ∧ t = s) ∨
    (s.rst = false ∧ waitsForHost s = false ∧ s.ph = .idle ∧ ∃ i rest, decodeCmd s.cfg s.cmdIn = .command i rest ∧
      exec i (s.withPort rest) = .next t) := by
  rcases Bool.eq_false_or_eq_true s.rst with hr | hr
  · rw [step_reset hr] at h; cases h; exact .inl ⟨hr, rfl⟩
  rcases Bool.eq_false_or_eq_true (waitsForHost s) with hw | hw
  · rw [step_slow hr hw] at h; cases h; exact .inr (.inl ⟨hr, hw, rfl⟩)
  rcases phase_cases s with hp | hp
  · rw [step_run hr hw hp] at h
    obtain ⟨hl, rfl⟩ | ⟨hl, w', hs, rfl⟩ := advance_next_cases h
    · exact .inr (.inr (.inl ⟨hr, hw, hp, hl, rfl⟩))
    · exact .inr (.inr (.inr (.inl ⟨hr, hw, hp, hl, w', hs, rfl⟩)))
  · cases hf : fetch s with
    | none => rw [step_wait hr hp hf] at h; cases h; exact .inr (.inr (.inr (.inr (.inl ⟨hr, hw, hp, rfl, rfl⟩))))
    | some p =>
      obtain ⟨i, s'⟩ := p
      rw [step_issue hr hw hp hf] at h
      obtain ⟨rest, hd, rfl⟩ := fetch_eq_some.1 hf
      exact .inr (.inr (.inr (.inr (.inr ⟨hr, hw, hp, i, rest, hd, h⟩))))

/-- One step, then the rest of a run. -/
theorem core_run_succ {s t : State} (n : Nat) (h : step s = .next t) :
    Host.Core.run Sys2Proof.core (n + 1) s = Host.Core.run Sys2Proof.core n t := by
  have h' : Sys2Proof.core.step s = .next t := h
  simp only [Host.Core.run, h']

/-- A run of `m + n` steps is a run of `m` and then one of `n`. -/
theorem core_run_add (M : Host.Core) {s t : M.State} (m n : Nat) (h : M.run m s = .next t) :
    M.run (m + n) s = M.run n t := by
  induction m generalizing s with
  | zero => cases h; simp
  | succ m ih =>
    rw [Nat.succ_add]
    simp only [Host.Core.run] at h ⊢
    split at h
    · exact ih h
    · cases h
    · cases h

end Sys2Proof.Machine
end

