-- ==== Sys2Proof/Tests/Slice0.lean ====
section
/-! SUPPORT. The model's own tests, each with its source in 95_test_vectors.md or a rule, and for every statement with hypotheses a
witness that meets them. -/

namespace Sys2Proof.Tests

open Sys2Proof.Machine

/-! ## Helpers -/

/-- The bit string of `n` bits that reads as the number `v` (R55). -/
def bs (n v : Nat) : BitStr := BitStr.ofNat n v

/-- The same as a raw operand. -/
def sy (n v : Nat) : SymStr := (bs n v).map fun b => if b then .b1 else .b0

/-- Does the outcome have a next state with the property? -/
def nextHas (o : Host.Outcome State Fault Refusal) (p : State → Bool) : Bool :=
  match o with
  | .next s => p s
  | .fault _ => false
  | .refused _ => false

/-- An idle instance with beats at its port. -/
def idleWith (beats : List Beat) : State := { State.reset with cmdIn := beats }

/-- An instance with a command in flight. -/
def running (o : Opr) (w g msg : BitStr) : State := { State.reset with ph := .run, opr := o, w := w, g := g, msg := msg }

/-- An instance with a 1-bit operand port and length fields of 2 bits. -/
def bitPort : Config := ⟨2, false⟩

/-! ## Well-formedness refuses -/

theorem test_wf_accepts : Instr.wf ⟨2, true⟩ (.enc (sy 3 0b101) [.other]) = true := by decide
theorem test_wf_rA_too_long : Instr.wf ⟨2, true⟩ (.enc (sy 4 0b1010) (sy 2 0b11)) = false := by decide
theorem test_wf_rB_too_long : Instr.wf ⟨2, true⟩ (.ver (sy 2 0b11) (sy 4 0b1010)) = false := by decide
theorem test_wf_other_in_rA_on_bit_port : Instr.wf bitPort (.xor [.other] [.b0]) = false := by decide
theorem test_wf_other_in_rB_on_bit_port : Instr.wf bitPort (.div [.b0] [.b1, .other]) = false := by decide

/-! ## Decoding of words written out from the spec's encoding -/

/-- F5: header `00000010 00000100 00`, `rA` = `01 01 00 00`, `rB` = `01 00`. -/
theorem test_decode_xor_F5 :
    decodeCmd Config.table [0b000000100000010000, 0b01, 0b01, 0b00, 0b00, 0b01, 0b00] =
      .command (.xor [.b1, .b1, .b0, .b0] [.b1, .b0]) [] := by decide

/-- F4: header `00000100 00001001 01`, with the first beats of a next frame left over. -/
theorem test_decode_div_F4 :
    decodeCmd Config.table [0b000001000000100101, 1, 0, 0, 1, 0, 0, 1, 1, 1, 1, 0, 1, 1, 0x810, 1] =
      .command (.div (sy 9 0b100100111) (sy 4 0b1011)) [0x810, 1] := by decide

/-- F6: header `00000100 00000011 10`. -/
theorem test_decode_enc_F6 :
    decodeCmd Config.table [0b000001000000001110, 1, 0, 1, 0, 1, 1, 0] = .command (.enc (sy 3 0b101) (sy 4 0b0110)) [] := by decide

/-- F7, with the redundant code `11` for `other` as well (R83 (e)). -/
theorem test_decode_ver_F7 :
    decodeCmd Config.table [0b000001000000010011, 1, 0, 0b10, 1, 1, 0, 1, 1] =
      .command (.ver [.b1, .b0, .other, .b1] (sy 4 0b1011)) [] ∧
    decodeCmd Config.table [0b000001000000010011, 1, 0, 0b11, 1, 1, 0, 1, 1] =
      .command (.ver [.b1, .b0, .other, .b1] (sy 4 0b1011)) [] := by decide

/-- The frames encode to the headers of F6, F7 and F12. -/
theorem test_encode_headers :
    encodeCmd Config.table (.enc (sy 3 0b101) (sy 4 0b0110)) = [0x0100E, 1, 0, 1, 0, 1, 1, 0] ∧
    encodeCmd Config.table (.ver [.b1, .b0, .other, .b1] (sy 4 0b1011)) = [0x01013, 1, 0, 2, 1, 1, 0, 1, 1] ∧
    encodeHeader Config.table (.div (sy 12 0b001101100000) (sy 4 0b1011)) = 0x01031 := by decide

/-- Table words: the header at bits 17..0, then the payload beats; `lenA = 1`, `lenB = 2`, symbols 1, then 1, 0. -/
theorem test_table_words :
    decodeTableWord 24 (0b00_01_01_00000010_00000001_00) = some (.xor [.b1] [.b1, .b0]) ∧
    decodeTableWord 24 (0b00_01_01_00000010_00000001_01) = some (.div [.b1] [.b1, .b0]) ∧
    decodeTableWord 24 (0b00_01_01_00000010_00000001_10) = some (.enc [.b1] [.b1, .b0]) ∧
    decodeTableWord 24 (0b00_01_01_00000010_00000001_11) = some (.ver [.b1] [.b1, .b0]) ∧
    decodeTableWord 24 0x3 = some (.ver [] []) := by decide

/-- A placed table word is the next command, right after reset: F6 with bits above the header zero is
`ENC "000", "0000"`, so the answer is `InvalidGenerator`. -/
theorem test_placed_word_runs :
    nextHas (step (State.reset.withFetchWord 24 0x0100E)) (fun s =>
      decide (s.rspTaken = [⟨.invalidGenerator, false, []⟩] ∧ s.cmdIn = [])) = true := by decide

/-- A port of 1 bit reads bit 0 only (R73), and a longer header value only its own fields. -/
theorem test_bit_port_decodes :
    decodeCmd bitPort [0b10_01_10, 1, 0, 3] = .command (.enc [.b1] [.b0, .b1]) [] := by decide

/-- Q1, Q2, Q4, Q6 and Q7. -/
theorem test_response_frames :
    encodeRsp (.okBits (bs 9 0b100100101)) = [0x048, 1, 0, 0, 1, 0, 0, 1, 0, 1] ∧
    encodeRsp (.okValid true) = [0x004] ∧ encodeRsp (.okBits (bs 3 0b010)) = [0x018, 0, 1, 0] ∧
    encodeRsp (.error .invalidGenerator) = [0x001] ∧ encodeRsp (.error .malformedInput) = [0x002] ∧
    decodeRsp Config.table [0x003] = .reservedStatus := by decide

/-- R70 and R71: `ENC "101", "0x10"`. -/
theorem test_text_form :
    Instr.text (.enc (sy 3 0b101) [.b0, .other, .b1, .b0]) =
      ['E', 'N', 'C', ' ', '"', '1', '0', '1', '"', ',', ' ', '"', '0', 'x', '1', '0', '"'] ∧
    Instr.ofText ['X', 'O', 'R', ' ', '"', '"', ',', ' ', '"', '1', '2', '"'] = some (.xor [] [.b1, .other]) := by decide

/-- R70: the written forms of responses. -/
theorem test_response_text :
    Response.text .ver (.okValid true) = ['-', '>', ' ', 't', 'r', 'u', 'e'] ∧
    Response.text .xor (.okBits [false, true]) = ['-', '>', ' ', '"', '0', '1', '"'] ∧
    (Response.text .enc (.error .malformedInput)).length = 17 := by decide

/-! ## The operations on the listed vectors -/

/-- X2, X3, X9 and X10. -/
theorem test_xor_vectors :
    xorBits (bs 4 0b1100) (bs 2 0b10) = bs 2 0b01 ∧ xorBits (bs 2 0b10) (bs 4 0b1100) = bs 2 0b01 ∧
    xorBits (bs 4 0b0101) (bs 4 0b1111) = bs 4 0b1010 ∧ xorBits (bs 4 0b0110) (bs 7 0b0110111) = zeros 4 := by decide

/-- E14 and E11: a leading 0 in `rB` is fine for XOR, a non-bit is not. -/
theorem test_xor_step :
    nextHas (exec (.xor (sy 3 0b101) [.b0]) State.reset) (fun s => decide (s = { State.reset with rspTaken := [.okBits [true]] })) = true ∧
    nextHas (exec (.xor [.b1, .other] (sy 2 0b10)) State.reset)
      (fun s => decide (s = { State.reset with rspTaken := [.error .malformedInput] })) = true := by decide

/-- P2, P4, P5, P9, P16 and P17. -/
theorem test_div_vectors :
    polyDivide (bs 4 0b1011) (bs 4 0b1011) = some (zeros 3) ∧ polyDivide (bs 2 0b11) (bs 4 0b1011) = some (bs 2 0b11) ∧
    polyDivide [] (bs 4 0b1011) = some [] ∧ polyDivide (bs 7 0b1101000) (bs 4 0b1011) = some (bs 3 0b001) ∧
    polyDivide (bs 7 0b1111111) (bs 4 0b1000) = some (bs 3 0b111) ∧
    polyDivide (bs 17 0b11010011101100000) (bs 4 0b1011) = some (bs 3 0b100) := by decide

/-- P18's first step, and E3: a divisor of one bit. -/
theorem test_div_step :
    nextHas (step (running .div (bs 14 0b11010110110000) (bs 5 0b10011) [])) (fun s => decide (s.w = bs 13 0b1001110110000 ∧ s.ph = .run)) =
      true ∧
    nextHas (exec (.div (sy 4 0b1101) [.b1]) State.reset)
      (fun s => decide (s = { State.reset with rspTaken := [.error .invalidGenerator] })) = true := by decide

/-- N2, N3, N5, N7, N8 and N13. -/
theorem test_enc_vectors :
    encode [true] (bs 4 0b1011) = some (bs 4 0b1011) ∧ encode (bs 4 0b1101) (bs 4 0b1011) = some (bs 7 0b1101001) ∧
    encode [] (bs 4 0b1011) = some (zeros 3) ∧ encode (bs 4 0b1011) (bs 2 0b10) = some (bs 5 0b10110) ∧
    encode (bs 10 0b1101011011) (bs 5 0b10011) = some (bs 14 0b11010110111110) ∧
    encode (bs 3 0b111) (bs 4 0b1111) = some (bs 6 0b111100) := by decide

/-- PR1 command 1: the ISSUE from frame F1, and its COMPLETE. -/
theorem test_enc_step :
    nextHas (step (idleWith [0x0101A, 1, 0, 0, 1, 0, 0, 1, 0, 1, 1])) (fun s =>
      decide (s = running .enc (bs 9 0b100100000) (bs 4 0b1011) (bs 6 0b100100))) = true ∧
    nextHas (step (running .enc (bs 3 0b101) (bs 4 0b1011) (bs 6 0b100100))) (fun s =>
      decide (s.ph = .idle ∧ s.rspTaken = [.okBits (bs 9 0b100100101)] ∧ s.w = bs 3 0b101)) = true := by decide

/-- V1, V2 (DOC0's wrong literal), V7, V8, V11, V12 and V15. -/
theorem test_ver_vectors :
    verify (bs 9 0b100100101) (bs 4 0b1011) = some true ∧ verify (bs 9 0b100100110) (bs 4 0b1011) = some false ∧
    verify [] (bs 4 0b1011) = some true ∧ verify (bs 2 0b01) (bs 4 0b1011) = some false ∧
    verify (bs 4 0b0100) (bs 3 0b100) = some true ∧ verify (bs 4 0b1101) (bs 3 0b100) = some false ∧
    verify (bs 9 0b000100111) (bs 4 0b1011) = some true ∧ verify (bs 9 0b100100101) (bs 4 0b1101) = some false := by decide

/-- E9: both errors apply and `MalformedInput` is reported; and the COMPLETE of F3's verdict. -/
theorem test_ver_step :
    nextHas (exec (.ver [.b1, .b0, .other, .b1] (sy 4 0b0110)) State.reset)
      (fun s => decide (s = { State.reset with rspTaken := [.error .malformedInput] })) = true ∧
    nextHas (step (running .ver (bs 3 0b010) (bs 4 0b1011) [])) (fun s => decide (s.ph = .idle ∧ s.rspTaken = [.okValid false])) = true := by
  decide

/-- PR5 event 4: RESET with a command in flight: idle, no response; a frame partly received goes. -/
theorem test_reset_step :
    nextHas (step ({ running .enc (bs 6 0b011000) (bs 4 0b1011) (bs 6 0b100100) with cmdIn := [0x0101A, 1, 0] }.assertReset))
      (fun s => decide (s.ph = .idle ∧ s.rspTaken = [] ∧ s.cmdIn = [] ∧ s.rst = false)) = true := by decide

/-- The host reads the responses it has received whole, as frames. -/
theorem test_read_taken :
    (State.readTaken { State.reset with rspTaken := [.okValid true, .okBits [false, true]] }).1 = [[0x004], [0x010, 0, 1]] := by decide

/-- R229: COMPLETE of an `ENC` waits for a slow host, with the next command at the port, and hands Q1 over once the host is ready. -/
theorem test_slow_host_complete :
    nextHas (step ({ running .enc (bs 3 0b101) (bs 4 0b1011) (bs 6 0b100100) with cmdIn := [0, 7] }.setReady false)) (fun s =>
      decide (s.ph = .run ∧ s.rspTaken = [] ∧ s.cmdIn = [0, 7]) &&
      nextHas (step (s.setReady true)) (fun t =>
        decide (t.ph = .idle ∧ t.rspTaken = [.okBits (bs 9 0b100100101)] ∧ t.cmdIn = [0, 7]))) = true := by decide

/-- R229: for a slow host the ISSUE of an `XOR` (F5) waits, and that of an `ENC` (F1), which answers nothing yet, does not. -/
theorem test_slow_host_issue :
    nextHas (step ((idleWith [0x00810, 1, 1, 0, 0, 1, 0]).setReady false)) (fun s =>
      decide (s = (idleWith [0x00810, 1, 1, 0, 0, 1, 0]).setReady false)) = true ∧
    nextHas (step ((idleWith [0x0101A, 1, 0, 0, 1, 0, 0, 1, 0, 1, 1]).setReady false)) (fun s =>
      decide (s.ph = .run ∧ s.cmdIn = [])) = true := by decide

/-- R39, R220: Q1 partly sent, header and two result bits (never its last beat); RESET voids it, and the host has received no response. -/
theorem test_reset_voids_partly_sent :
    ((running .enc (bs 3 0b101) (bs 4 0b1011) (bs 6 0b100100)).receive 3).rspPart = [0x048, 1, 0] ∧
    (((running .enc (bs 3 0b101) (bs 4 0b1011) (bs 6 0b100100)).receive 3).receive 99).rspPart = [0x048, 1, 0, 0, 1, 0, 0, 1, 0] ∧
    nextHas (step ((running .enc (bs 3 0b101) (bs 4 0b1011) (bs 6 0b100100)).receive 3).assertReset) (fun s =>
      decide (s.ph = .idle ∧ s.rspPart = [] ∧ s.rspTaken = [])) = true := by decide

/-- R39: an `XOR` (F5) whose response is partly sent is abandoned with it at RESET; the frame behind it stays at the port. -/
theorem test_reset_abandons_answered_frame :
    nextHas (step ((idleWith [0x00810, 1, 1, 0, 0, 1, 0, 0]).receive 1).assertReset) (fun s =>
      decide (s.ph = .idle ∧ s.rspPart = [] ∧ s.rspTaken = [] ∧ s.cmdIn = [0])) = true := by decide

/-! ## Witnesses: states and operands that meet the hypotheses of the statements -/

/-- FrameCodecInverse: the longest operand of a small instance, a canonical frame, a cut frame, and the idle state that waits on it. -/
theorem witness_FrameCodecInverse :
    (Instr.wf ⟨1, true⟩ (.ver [.other] []) = true) ∧
    (FrameCanonical ⟨1, true⟩ [0b0111, 2] ∧ decodeCmd ⟨1, true⟩ [0b0111, 2] = .command (.ver [.other] []) []) ∧
    (0 < 1 ∧ 1 < (encodeCmd ⟨1, true⟩ (.ver [.other] [])).length) ∧
    ((idleWith [0x0101A, 1]).ph = .idle ∧ (idleWith [0x0101A, 1]).rst = false ∧
      (Instr.wf Config.table (.enc (sy 6 0b100100) (sy 4 0b1011))) = true ∧
      2 < (encodeCmd Config.table (.enc (sy 6 0b100100) (sy 4 0b1011))).length ∧
      (idleWith [0x0101A, 1]).cmdIn = (encodeCmd Config.table (.enc (sy 6 0b100100) (sy 4 0b1011))).take 2) := by
  refine ⟨by decide, ⟨⟨?_, by decide⟩, by decide⟩, by decide, by decide⟩
  intro h hh
  cases hh
  decide

/-- CommandHeaderFields: both operands at `LMAX`, and a row of field values at their bounds. -/
theorem witness_CommandHeaderFields :
    Instr.wf ⟨2, true⟩ (.div (sy 3 0) (sy 3 7)) = true ∧ 3 ≤ Config.lmax ⟨2, true⟩ ∧ 0 ≤ Config.lmax ⟨2, true⟩ := by decide

/-- OperationCodes: a row of the map with a header that meets it. -/
theorem witness_OperationCodes : (⟨.enc, 2, 3⟩ : OpcodeRow) ∈ opcodeMap ∧ 0x0101A &&& 3 = 2 := by decide

/-- OperandAssembly: exactly the announced payload, and with a position of each operand. -/
theorem witness_OperandAssembly :
    headerLenA bitPort 0b100110 + headerLenB bitPort 0b100110 ≤ [1, 0, 3].length ∧
      0 < headerLenA bitPort 0b100110 ∧ 1 < headerLenB bitPort 0b100110 := by decide

/-- SymbolCodes: both kinds of port, the largest code. -/
theorem witness_SymbolCodes : Config.table.symchk = true ∧ 3 < 4 ∧ bitPort.symchk = false := by decide

/-- ResponseFrameRoundTrip: the longest `rlen` of an instance with `LENW = 1`, and a header with the reserved status. -/
theorem witness_ResponseFrameRoundTrip : Response.rlen (.okBits [true, false, true]) < 2 ^ (1 + 1) ∧ 0x7 % 4 = 3 := by decide

/-- PackingRoundTrip: a value at its bound and a last position. -/
theorem witness_PackingRoundTrip : 7 < 2 ^ 3 ∧ 2 < (bs 3 5).length := by decide

/-- XorBitsPositionwise: a last common position of two lengths. -/
theorem witness_XorBitsPositionwise : (bs 4 0b1100)[1]? = some true ∧ (bs 2 0b10)[1]? = some false := by decide

/-- XorLaws (d), (e), (f). -/
theorem witness_XorLaws :
    (bs 2 1).length = (bs 2 2).length ∧ (bs 2 2).length = (bs 2 3).length ∧ 1 ≤ (bs 2 3).length ∧ (bs 2 3).head? = (bs 2 2).head? ∧
      2 ≤ min (bs 2 3).length (bs 4 2).length := by decide

/-- XorAnswersAtOnce: bits of unequal lengths, a non-bit, and a frame at the port. -/
theorem witness_XorAnswersAtOnce :
    (State.reset.ph = .idle ∧ bits? (sy 4 0b1100) = some (bs 4 0b1100) ∧ bits? [] = some []) ∧
    (State.reset.cfg.symchk = true ∧ (isBits [.other] && isBits []) = false) ∧
    ((idleWith [0x00810, 1, 1, 0, 0, 1, 0, 9]).rst = false ∧ (idleWith [0x00810, 1, 1, 0, 0, 1, 0, 9]).ph = .idle ∧
      (idleWith [0x00810, 1, 1, 0, 0, 1, 0, 9]).rspReady = true ∧
      Instr.wf (idleWith []).cfg (.xor (sy 4 0b1100) (sy 2 0b10)) = true ∧
      (idleWith [0x00810, 1, 1, 0, 0, 1, 0, 9]).cmdIn = encodeCmd (idleWith []).cfg (.xor (sy 4 0b1100) (sy 2 0b10)) ++ [9]) := by decide

/-- DivStartsDivision, EncStartsDivision and VerStartsDivision: an idle state, an empty first operand, the shortest generator. -/
theorem witness_StartsDivision :
    State.reset.ph = .idle ∧ bits? [] = some [] ∧ bits? (sy 2 0b10) = some (bs 2 0b10) ∧ validGen (bs 2 0b10) = true := by decide

/-- IssueStep: a busy state, a non-bit, a valid and an invalid generator. -/
theorem witness_IssueStep :
    (running .div [] (bs 2 2) []).ph = .run ∧ State.reset.ph = .idle ∧ State.reset.cfg.symchk = true ∧
      (isBits [.b0] && isBits [.other]) = false ∧ bits? [.b1] = some [true] ∧ validGen [true] = false ∧ validGen (bs 2 3) = true := by
  decide

/-- OtherNeedsSymbolCheck: a non-bit for a 1-bit port, and a frame such a port decodes. -/
theorem witness_OtherNeedsSymbolCheck :
    (State.resetWith bitPort).ph = .idle ∧ (State.resetWith bitPort).cfg.symchk = false ∧ (isBits [.other] && isBits []) = false ∧
      decodeCmd bitPort [0b000100, 3] = .command (.xor [.b1] []) [] := by decide

/-- InvalidGeneratorExactly and MalformedInputExactly: a state, and both sides of each equivalence at the bounds of the cases. -/
theorem witness_ErrorsExactly :
    State.reset.ph = .idle ∧ State.reset.cfg.symchk = true ∧ Sym.other ∈ [Sym.b0, Sym.other] ∧
    (isBits [] = true ∧ ([] : SymStr).length = 0) ∧ (isBits [.b1] = true ∧ [Sym.b1].length = 1) ∧
    (isBits [.b0, .b1] = true ∧ 2 ≤ [Sym.b0, Sym.b1].length ∧ [Sym.b0, Sym.b1].head? = some .b0) := by decide

/-- MalformedInputFirst: E12 and E10. -/
theorem witness_MalformedInputFirst :
    State.reset.ph = .idle ∧ State.reset.cfg.symchk = true ∧ Op.div ≠ Op.xor ∧ (Sym.other ∈ [Sym.other] ∨ Sym.other ∈ ([] : SymStr)) ∧
      (([] : SymStr).length < 2) ∧ (Sym.other ∈ [Sym.other, .b0, .b1, .b1]) ∧ [Sym.other, .b0, .b1, .b1].head? ≠ some .b1 := by decide

/-- ErrorsOnlyAtIssue: a failing command, and a running state with a next state. -/
theorem witness_ErrorsOnlyAtIssue :
    exec (.enc (sy 3 0b101) (sy 4 0b0110)) State.reset = .next { State.reset with rspTaken := [Response.error .invalidGenerator] } ∧
    (running .div (bs 2 3) (bs 2 3) []).ph = .run ∧ (running .div (bs 2 3) (bs 2 3) []).rst = false ∧
    step (running .div (bs 2 3) (bs 2 3) []) = .next (running .div [false] (bs 2 3) []) := ⟨rfl, rfl, rfl, rfl⟩

/-- DivStepBehaviour and DivStepOneFormula, in both branches, with the shortest working value; and a tail position. -/
theorem witness_DivStep :
    validGen (bs 2 3) = true ∧ (bs 2 3).length ≤ (bs 2 2).length ∧ (bs 2 2).head? = some true ∧
      (bs 2 3).length ≤ (bs 3 3).length ∧ (bs 3 3).head? = some false ∧ (bs 2 3).length ≤ 2 := by decide

/-- PolyDivideRecursion, DivisionStepCount, RemainderLength, RemainderValue, BufferFormAgrees, EncodeIsSystematic, RoundTripValidity,
ShortCodeWords, VerdictIsDivisibility: a valid generator, with dividends just below and at its length, and step numbers at their bounds. -/
theorem witness_ValidGenerator :
    validGen (bs 4 0b1011) = true ∧ (bs 3 7).length < (bs 4 0b1011).length ∧ (bs 4 0b1011).length ≤ (bs 4 7).length ∧
      1 ≤ (bs 4 7).length + 1 - (bs 4 0b1011).length ∧ 0 < 1 ∧ ([] : BitStr).length < (bs 4 0b1011).length ∧
      verify [] (bs 4 0b1011) = some true ∧ polyDivide [] (bs 4 0b1011) = some [] := by decide

/-- RemainderValue's uniqueness: a string of the remainder's length that spells the remainder, here of the empty dividend. -/
theorem witness_RemainderValue :
    ([] : BitStr).length = min ([] : BitStr).length ((bs 4 0b1011).length - 1) ∧
      BitStr.poly [] = BitStr.poly [] % BitStr.poly (bs 4 0b1011) := by
  refine ⟨rfl, ?_⟩
  simp [BitStr.poly]

/-- PolyDivideLaws and EncodeLaws: the lengths of (c), and remainders and code words to start from. -/
theorem witness_PolyDivideLaws :
    validGen (bs 4 0b1011) = true ∧ (bs 4 0b1011).length - 1 ≤ (bs 3 1).length ∧ (bs 2 1).length < (bs 4 0b1011).length - 1 ∧
      polyDivide (bs 4 0b1000) (bs 4 0b1011) = some (bs 3 0b011) ∧ polyDivide (bs 4 0b1011) (bs 4 0b1011) = some (zeros 3) ∧
      (bs 4 0b1000).length = (bs 4 0b1011).length ∧ [true].length = 1 ∧
      encode [true] (bs 4 0b1011) = some (bs 4 0b1011) ∧ encode [false] (bs 4 0b1011) = some (zeros 4) := by decide

/-- PadAndNorm: the shortest generator length that `pad` needs, and a remainder at and below the width. -/
theorem witness_PadAndNorm : 1 ≤ [true].length ∧ (bs 3 1).length ≤ 3 ∧ (bs 3 1).length = 3 ∧ (bs 2 1).length ≤ 3 := by decide

/-- EmptyMessageEncodes. -/
theorem witness_EmptyMessageEncodes : bits? (sy 2 0b10) = some (bs 2 0b10) ∧ validGen (bs 2 0b10) = true := by decide

/-- SingleBitDetection: a good generator, and a weak one with a flip in the message and one in the checksum. -/
theorem witness_SingleBitDetection :
    (validGen (bs 4 0b1011) = true ∧ encode [true] (bs 4 0b1011) = some (bs 4 0b1011) ∧ 3 < (bs 4 0b1011).length) ∧
    (validGen (bs 3 0b100) = true ∧ encode (bs 2 3) (bs 3 0b100) = some (bs 4 0b1100) ∧ 0 < (bs 4 0b1100).length ∧
      3 < (bs 4 0b1100).length ∧ weakGen (bs 3 0b100) = true) := by decide

/-- StepIssuesDecodedCommand: a host that is ready, an ISSUE that answers nothing to one that is not, and one that waits. -/
theorem witness_StepIssuesDecodedCommand :
    ((idleWith [0, 7]).rst = false ∧ (idleWith [0, 7]).ph = .idle ∧
      decodeCmd (idleWith [0, 7]).cfg (idleWith [0, 7]).cmdIn = .command (.xor [] []) [7] ∧ (idleWith [0, 7]).rspReady = true) ∧
    (((idleWith [0x0806, 1, 1, 1]).setReady false).rst = false ∧ ((idleWith [0x0806, 1, 1, 1]).setReady false).ph = .idle ∧
      decodeCmd Config.table [0x0806, 1, 1, 1] = .command (.enc [.b1] [.b1, .b1]) [] ∧
      offered ((idleWith [0x0806, 1, 1, 1]).setReady false) = none) ∧
    (((idleWith [0, 7]).setReady false).rspReady = false ∧ offered ((idleWith [0, 7]).setReady false) ≠ none) := by decide

/-- RunningStep and UndefinedCasesStopByName: lengths at the bound between DIVSTEP and COMPLETE, and a generator that is not valid. -/
theorem witness_RunningStep :
    (running .ver (bs 2 1) (bs 2 3) []).ph = .run ∧ (running .ver (bs 2 1) (bs 2 3) []).rst = false ∧
      (bs 2 3).length ≤ (bs 2 1).length ∧ validGen (bs 2 3) = true ∧ (bs 1 1).length < (bs 2 3).length ∧
      (bs 2 1).length ≤ (bs 2 1).length ∧ validGen (bs 2 1) = false ∧
      (running .ver (bs 2 1) (bs 2 3) []).rspReady = true ∧ ((running .ver (bs 2 1) (bs 2 3) []).setReady false).rspReady = false ∧
      step ((running .ver (bs 1 1) (bs 2 3) []).setReady false) = .next ((running .ver (bs 1 1) (bs 2 3) []).setReady false) := by
  refine ⟨rfl, rfl, by decide, rfl, by decide, by decide, rfl, rfl, rfl, rfl⟩

/-- WholeFramesOnly, ResetStep: an idle state with all but the last beat of a frame, and the same with reset asserted. -/
theorem witness_WholeFramesOnly :
    (idleWith [0x01006, 1, 1, 0, 1]).ph = .idle ∧ Instr.wf Config.table (.enc [.b1] (sy 4 0b1011)) = true ∧
      5 < (encodeCmd Config.table (.enc [.b1] (sy 4 0b1011))).length ∧
      (idleWith [0x01006, 1, 1, 0, 1]).cmdIn = (encodeCmd Config.table (.enc [.b1] (sy 4 0b1011))).take 5 ∧
      (idleWith [0x01006, 1, 1, 0, 1]).rst = false ∧ (idleWith [0x01006, 1, 1, 0, 1]).assertReset.rst = true ∧
      (idleWith []).assertReset.ph = .idle ∧ (idleWith []).assertReset.cmdIn = [] ∧ (idleWith []).assertReset.rspPart = [] ∧
      (idleWith [0x01006, 1, 1, 0, 1]).rspReady = true := by decide

/-- IdleInstanceWaits: nothing at the port. -/
theorem witness_IdleInstanceWaits :
    (idleWith []).ph = .idle ∧ (idleWith []).rst = false ∧
      ∀ (i : Instr) (rest : List Beat), decodeCmd (idleWith []).cfg (idleWith []).cmdIn ≠ .command i rest := by
  refine ⟨rfl, rfl, ?_⟩
  intro i rest h
  cases h

/-- WaitingFramesSurviveReset: one whole frame and the header of another; and the same with the first frame's response partly sent. -/
theorem witness_WaitingFramesSurviveReset :
    (idleWith [0, 0x01006]).assertReset.rst = true ∧ (∀ j ∈ [Instr.xor [] []], j.wf Config.table = true) ∧
      Instr.wf Config.table (.enc [.b1] (sy 4 0b1011)) = true ∧ 1 < (encodeCmd Config.table (.enc [.b1] (sy 4 0b1011))).length ∧
      (idleWith [0, 0x01006]).assertReset.cmdIn =
        [Instr.xor [] []].flatMap (encodeCmd Config.table) ++ (encodeCmd Config.table (.enc [.b1] (sy 4 0b1011))).take 1 ∧
      (idleWith [0, 0x01006]).assertReset.ph = .idle ∧ (idleWith [0, 0x01006]).assertReset.rspPart = [] ∧
      { (idleWith [0, 0x01006]).assertReset with rspPart := [0] }.rspPart ≠ [] := by decide

/-- BusyInstanceTakesNoCommand, PortsAreQueues, RegisterWriters: steps that write each register, that take a command, that hand a
response over, that have none to hand over, and that wait for a slow host. -/
theorem witness_Steps :
    step (running .ver [] (bs 2 3) []) = .next { running .ver [] (bs 2 3) [] with ph := .idle, rspTaken := [Response.okValid true] } ∧
    step (idleWith [0x0806, 1, 1, 1]) =
      .next { running .enc (bs 2 0b10) (bs 2 3) [true] with cmdIn := [] } ∧
    (running .ver [] (bs 2 3) []).rst = false ∧ (idleWith [0x0806, 1, 1, 1]).rst = false ∧
    offered (running .ver [] (bs 2 3) []) = some (.okValid true) ∧ offered (idleWith [0x0806, 1, 1, 1]) = none ∧
    ((running .ver [] (bs 2 3) []).setReady false).rspReady = false ∧
    step ((running .ver [] (bs 2 3) []).setReady false) = .next ((running .ver [] (bs 2 3) []).setReady false) := by
  refine ⟨rfl, rfl, rfl, rfl, rfl, rfl, rfl, rfl⟩

/-- InvariantKept, StepAlwaysHasNext, ResponsesFitTheFrame: a running state that meets the invariant, with a response handed over before
and the next one partly sent. -/
theorem witness_Inv :
    State.Inv { running .enc (bs 3 0b011) (bs 4 0b1011) [true] with rspTaken := [.okValid true], rspPart := [0x020, 1] } := by
  refine ⟨by decide, fun _ => ⟨by decide, by decide, by decide, fun _ => by decide⟩, ?_, ?_⟩
  · intro r hr
    simp only [List.mem_singleton] at hr
    subst hr
    exact ⟨by decide, by decide, by decide⟩
  · intro _
    exact ⟨.okBits (bs 4 0b1011), rfl, ⟨[0, 1, 1], rfl⟩, by decide⟩

/-- EncRemainderKept: an ENC in flight after its one DIVSTEP. -/
theorem witness_EncInv : State.EncInv (running .enc (bs 3 0b011) (bs 4 0b1011) [true]) := fun _ _ => by decide

/-- CommandReachesItsResponse, and the frames of DivReturnsTheRemainder, EncReturnsTheCodeWord and VerReturnsTheVerdict: idle, the
whole frame at the port, with a valid generator, an invalid one, and a non-bit. -/
theorem witness_CommandFrames :
    ((idleWith (encodeCmd Config.table (.enc [] (sy 2 3)) ++ [5])).ph = .idle ∧
      (idleWith (encodeCmd Config.table (.enc [] (sy 2 3)) ++ [5])).rst = false ∧
      Instr.wf Config.table (.enc [] (sy 2 3)) = true ∧ bits? [] = some [] ∧ bits? (sy 2 3) = some (bs 2 3) ∧
      validGen (bs 2 3) = true ∧ startsDivision Config.table (.enc [] (sy 2 3)) = true ∧
      0 < totalSteps Config.table (.enc [] (sy 2 3)) ∧
      (idleWith (encodeCmd Config.table (.enc [] (sy 2 3)) ++ [5])).rspReady = true) ∧
    (Instr.wf Config.table (.div [] [.b1]) = true ∧ bits? [.b1] = some [true] ∧ validGen [true] = false) ∧
    (Instr.wf Config.table (.ver [.other] []) = true ∧ (isBits [.other] && isBits []) = false) := by decide

/-- StaleRegistersUnobservable: two idle states with different registers, and two busy ones with different `MSG`. -/
theorem witness_Alike :
    State.Alike State.reset { State.reset with w := [true], g := [true], opr := .ver, msg := [false], fresh := 3 } ∧
    State.Alike (running .div [true] (bs 2 3) []) (running .div [true] (bs 2 3) [true]) := by
  refine ⟨⟨rfl, rfl, rfl, rfl, rfl, rfl, rfl, ?_⟩, ⟨rfl, rfl, rfl, rfl, rfl, rfl, rfl, ?_⟩⟩
  · intro h; cases h
  · intro _; exact ⟨rfl, rfl, rfl, fun h => by cases h⟩

/-- InstancesShareNothing: two instances that can both step. -/
theorem witness_Instances :
    stepInstance [State.reset, running .div [true] (bs 2 3) []] ⟨1, by decide⟩ =
      .next [State.reset, { running .div [true] (bs 2 3) [] with ph := .idle, rspTaken := [Response.okBits [true]] }] ∧
    stepInstance [State.reset, running .div [true] (bs 2 3) []] ⟨0, by decide⟩ =
      .next [State.reset, running .div [true] (bs 2 3) []] := ⟨rfl, rfl⟩

end Sys2Proof.Tests
end

section
/-! PROOFS. The ISSUE step (R33) and the steps of a command in flight (R34, R35, R229). -/

namespace Sys2Proof.Machine

/-! ## The ISSUE step -/

/-- On two bit strings an idle instance starts the operation, whatever it is (R33). -/
theorem exec_bits {s : State} {i : Instr} {a b : BitStr} (hp : s.ph = .idle)
    (ha : bits? i.rA = some a) (hb : bits? i.rB = some b) : exec i s = .next (issued s i.op a b) := by
  rw [exec_eq_issue, issue_bits _ hp ha hb]

/-- On an operand that is no bit string an idle instance reports `MalformedInput`, whatever the operation (R183). -/
theorem exec_nonbits {s : State} {i : Instr} (hp : s.ph = .idle) (hc : s.cfg.symchk = true)
    (hx : (isBits i.rA && isBits i.rB) = false) : exec i s = .next (s.takeError .malformedInput) := by
  rw [exec_eq_issue, issue_nonbits _ hp hc hx]

/-- The second check of ISSUE as an outcome: the division started, or `InvalidGenerator` (R182). -/
theorem next_checkGenerator (s start : State) (g : BitStr) :
    (.next (checkGenerator s g start) : Host.Outcome State Fault Refusal) =
      if validGen g then .next start else .next (s.takeError .invalidGenerator) :=
  apply_ite ..

/-- Settles O17: the two checks of ISSUE in R33's order, then one case for each operation. -/
theorem issueStep : Obligations.IssueStep := by
  intro s i
  refine ⟨fun t h => (exec_next_cases h).1, fun hp hc hx => exec_nonbits hp hc hx, fun hp a b ha hb => ?_⟩
  rw [exec_bits hp ha hb]
  cases i with
  | xor rA rB => rfl
  | div rA rB => exact next_checkGenerator ..
  | enc rA rB => exact next_checkGenerator ..
  | ver rA rB => exact next_checkGenerator ..

/-! ## The steps of a command in flight -/

/-- DIVSTEP waits for no host: it hands nothing over (R229), and it writes `W` only (R34). -/
theorem step_divStep {s : State} {w' : BitStr} (hp : s.ph = .run) (hr : s.rst = false) (hl : s.g.length ≤ s.w.length)
    (hs : divStep s.w s.g = some w') : step s = .next { s with w := w' } := by
  have ho : offered s = none := by rw [offered_run hp, if_neg hl.not_gt]
  rw [step_run hr (not_waitsForHost (.inr ho)) hp, advance, if_neg hl.not_gt, divStepStep, hs]

/-- For a host that is ready the step after the last DIVSTEP is COMPLETE (R35). -/
theorem step_complete {s : State} (hp : s.ph = .run) (hr : s.rst = false) (hl : s.w.length < s.g.length)
    (hready : s.rspReady = true) : step s = .next (complete s) := by
  rw [step_run hr (not_waitsForHost (.inl hready)) hp, advance, if_pos hl]

/-- For a host that is not ready COMPLETE happens later (R229). -/
theorem step_complete_waits {s : State} (hp : s.ph = .run) (hr : s.rst = false) (hl : s.w.length < s.g.length)
    (hslow : s.rspReady = false) : step s = .next s := by
  have ho : offered s = some (completionResponse s) := by rw [offered_run hp, if_pos hl]
  exact step_slow hr ((waitsForHost_iff s).2 ⟨hslow, by rw [ho]; rfl⟩)

/-- COMPLETE written out on the state it starts from: `PH` and the response port change, no other register does (R35, R38). -/
theorem complete_eq (s : State) :
    complete s = { s with ph := .idle, rspPart := [], rspTaken := s.rspTaken ++ [completionResponse s] } := rfl

/-- Settles O41: DIVSTEP while `W` is long enough; after that COMPLETE for a ready host, and the wait for a slow one. -/
theorem runningStep : Obligations.RunningStep := by
  intro s hp hr
  refine ⟨fun hl hg => ?_, fun hl => ⟨fun hslow t h => ?_, fun hready => ?_⟩⟩
  · obtain ⟨w', hs, hw⟩ := divStep_isSome hg hl
    exact ⟨w', hs, Nat.eq_sub_of_add_eq hw, step_divStep hp hr hl hs⟩
  · rw [step_complete_waits hp hr hl hslow] at h
    cases h
    rfl
  · rw [step_complete hp hr hl hready, complete_eq, completionResponse]
    cases s.opr <;> rfl

end Sys2Proof.Machine
end

section
/-! PROOFS. Packing a bit string into a vector (R55). `Nat.bit b v` is the vector `v` with the bit `b` put in at its least significant
end: `BitStr.toNat` and `BitStr.ofNat` both turn it into a bit appended to the string, so each undoes the other, bit by bit from the
trailing end. -/

namespace Sys2Proof

theorem BitStr.toNat_concat (s : BitStr) (b : Bit) : BitStr.toNat (s ++ [b]) = Nat.bit b (BitStr.toNat s) := by
  simp [BitStr.toNat, Nat.bit_val]

theorem BitStr.ofNat_bit (n v : Nat) (b : Bit) : BitStr.ofNat (n + 1) (Nat.bit b v) = BitStr.ofNat n v ++ [b] := by
  have hshift : ∀ i < n, (Nat.bit b v).testBit (n - i) = v.testBit (n - 1 - i) := by
    intro i hi
    rw [show n - i = n - 1 - i + 1 by omega, Nat.testBit_bit_succ]
  simpa [BitStr.ofNat, List.range_succ] using hshift

@[simp] theorem BitStr.length_ofNat (n v : Nat) : (BitStr.ofNat n v).length = n := by
  simp [BitStr.ofNat]

theorem BitStr.getElem?_ofNat {n i : Nat} (v : Nat) (hi : i < n) :
    (BitStr.ofNat n v)[i]? = some (v.testBit (n - 1 - i)) := by
  simp [BitStr.ofNat, hi]

theorem BitStr.toNat_lt (s : BitStr) : s.toNat < 2 ^ s.length := by
  induction s using List.reverseRecOn with
  | nil => decide
  | append_singleton s b ih =>
    rw [BitStr.toNat_concat, List.length_append, List.length_singleton]
    exact Nat.bit_lt_two_pow_succ_iff.2 ih

/-- The string is recovered from its length and its vector (R55). -/
theorem BitStr.ofNat_toNat (s : BitStr) : BitStr.ofNat s.length s.toNat = s := by
  induction s using List.reverseRecOn with
  | nil => rfl
  | append_singleton s b ih =>
    rw [List.length_append, List.length_singleton, BitStr.toNat_concat, BitStr.ofNat_bit, ih]

/-- The vector is recovered from the string that it packs, when the width holds it (R55). -/
theorem BitStr.toNat_ofNat {n v : Nat} (hv : v < 2 ^ n) : (BitStr.ofNat n v).toNat = v := by
  induction n generalizing v with
  | zero => exact (Nat.lt_one_iff.1 hv).symm
  | succ n ih =>
    cases v using Nat.bitCasesOn with
    | bit b v => rw [BitStr.ofNat_bit, BitStr.toNat_concat, ih (Nat.bit_lt_two_pow_succ_iff.1 hv)]

/-- Settles O9: the recoveries in both directions; the bit at a position is read off the recovered string. -/
theorem packingRoundTrip : Obligations.PackingRoundTrip := by
  refine ⟨fun s => ⟨BitStr.ofNat_toNat s, BitStr.toNat_lt s, fun i hi => ?_⟩,
    fun n v hv => ⟨BitStr.toNat_ofNat hv, BitStr.length_ofNat n v⟩, rfl⟩
  calc s[i]? = (BitStr.ofNat s.length (BitStr.toNat s))[i]? := by rw [BitStr.ofNat_toNat]
    _ = some ((BitStr.toNat s).testBit (s.length - 1 - i)) := BitStr.getElem?_ofNat _ hi

end Sys2Proof
end

section
/-! PROOFS. The command frame (R73, R76 to R78, R84). `encodeHeader_eq` writes the header by its fields from the least significant end,
`op + 4 * (lenA + 2^LENW * lenB)`: the decoder's three fields and the header's bound are read off that form, and `header_recompose`
is its converse. The symbols have one round trip in each direction, and the frame's two round trips are put together from both. -/

namespace Sys2Proof

/-! ## Operation codes -/

@[simp] theorem Op.ofCode_code (o : Op) : Op.ofCode o.code = o := by cases o <;> rfl

@[simp] theorem Op.code_ofCode (n : Nat) : (Op.ofCode n).code = n % 4 := by
  have hcases : n % 4 = 0 ∨ n % 4 = 1 ∨ n % 4 = 2 ∨ n % 4 = 3 := by omega
  rcases hcases with h | h | h | h <;> rw [Op.ofCode, h] <;> rfl

theorem Op.code_injective : Function.Injective Op.code := Function.LeftInverse.injective Op.ofCode_code

/-- A row of the opcode map says nothing but its operation's code on the two low bits (R82). -/
theorem opcodeMap_row {row : OpcodeRow} (h : row ∈ opcodeMap) : row.mask = 2 ^ 2 - 1 ∧ row.value = row.op.code := by
  have hall : ∀ r ∈ opcodeMap, r.mask = 2 ^ 2 - 1 ∧ r.value = r.op.code := by decide
  exact hall row h

/-- Settles O3: the mask leaves `H % 4`, which is the code of the decoder's operation, and different operations have different codes. -/
theorem operationCodes : Obligations.OperationCodes := by
  refine ⟨⟨rfl, rfl, rfl, rfl⟩, Op.ofCode_code, Op.code_ofCode, fun h row hrow => ?_⟩
  obtain ⟨hmask, hvalue⟩ := opcodeMap_row hrow
  calc h &&& row.mask = row.value
      ↔ (headerOp h).code = row.op.code := by
        rw [hmask, hvalue, Nat.and_two_pow_sub_one_eq_mod, headerOp, Op.code_ofCode]
    _ ↔ headerOp h = row.op := Op.code_injective.eq_iff

/-! ## Symbol codes -/

/-- The 2-bit port: the upper bit of a code marks "not a bit" (R73). -/
theorem symOfBeat_port2 {c : Config} {v : Nat} (hc : c.symchk = true) (hv : v < 4) :
    symOfBeat c v = if v = 0 then .b0 else if v = 1 then .b1 else .other := by
  simp only [symOfBeat, hc]
  interval_cases v <;> rfl

/-- The 1-bit port (R73). -/
theorem symOfBeat_port1 {c : Config} (hc : c.symchk = false) (v : Nat) :
    symOfBeat c v = if v % 2 = 0 then .b0 else .b1 := by
  simp only [symOfBeat, hc]
  rcases Nat.mod_two_eq_zero_or_one v with h | h <;> simp [h]

/-- The characters `0` and `1` are the bits, and every other character is `other` (R73). -/
theorem Sym.ofChar_eq_iff (ch : Char) : (Sym.ofChar ch = .b0 ↔ ch = '0') ∧ (Sym.ofChar ch = .b1 ↔ ch = '1') ∧
    (Sym.ofChar ch = .other ↔ ch ≠ '0' ∧ ch ≠ '1') := by
  by_cases h0 : ch = '0'
  · subst h0; decide
  · by_cases h1 : ch = '1'
    · subst h1; decide
    · simp [Sym.ofChar, h0, h1]

/-- Settles O5: the two kinds of port, then the characters. -/
theorem symbolCodes : Obligations.SymbolCodes :=
  ⟨fun _ _ => symOfBeat_port2, fun _ v hc => symOfBeat_port1 hc v, Sym.ofChar_eq_iff⟩

/-- A beat that is one of the codes the encoder emits is the code of the symbol it carries (R73, R83 (e)). -/
theorem code_symOfBeat {c : Config} {v : Nat} (hv : v < if c.symchk then 3 else 2) : (symOfBeat c v).code = v := by
  cases hc : c.symchk with
  | true =>
    have h3 : v < 3 := by simpa [hc] using hv
    rw [symOfBeat_port2 hc (by omega)]
    interval_cases v <;> rfl
  | false =>
    have h2 : v < 2 := by simpa [hc] using hv
    rw [symOfBeat_port1 hc]
    interval_cases v <;> rfl

/-- The decoder reads back the payload of an operand that the port can carry. -/
theorem map_symOfBeat_code {c : Config} {r : SymStr} (h : SymStr.wf c r = true) :
    r.map (symOfBeat c ∘ Sym.code) = r := by
  obtain ⟨-, hsym⟩ := (symStr_wf_iff c r).1 h
  exact (List.map_congr_left fun s hs => symOfBeat_code (hsym.imp_right fun h => h s hs)).trans (List.map_id r)

/-- The encoder writes back a payload of its own codes. -/
theorem map_code_symOfBeat {c : Config} {l : List Beat} (h : ∀ v ∈ l, v < if c.symchk then 3 else 2) :
    l.map (Sym.code ∘ symOfBeat c) = l :=
  (List.map_congr_left fun v hv => code_symOfBeat (h v hv)).trans (List.map_id l)

/-! ## The fields of the header -/

/-- Both lengths of a command that a frame can carry fit their fields (R5, R84). -/
theorem Instr.lengths_lt {c : Config} {i : Instr} (h : i.wf c = true) :
    i.rA.length < 2 ^ c.lenw ∧ i.rB.length < 2 ^ c.lenw := by
  obtain ⟨hA, hB⟩ := (instr_wf_iff c i).1 h
  rw [← Config.le_lmax_iff, ← Config.le_lmax_iff]
  exact ⟨((symStr_wf_iff c _).1 hA).1, ((symStr_wf_iff c _).1 hB).1⟩

/-- The header by its fields, from the least significant end (R77). -/
theorem encodeHeader_eq (c : Config) (i : Instr) :
    encodeHeader c i = i.op.code + 4 * (i.rA.length + 2 ^ c.lenw * i.rB.length) := by
  rw [encodeHeader, Nat.pow_add]; ring

theorem encodeHeader_div_four (c : Config) (i : Instr) :
    encodeHeader c i / 4 = i.rA.length + 2 ^ c.lenw * i.rB.length := by
  rw [encodeHeader_eq, Nat.add_mul_div_left _ _ (by decide), Nat.div_eq_of_lt i.op.code_lt, Nat.zero_add]

/-- The field `lenB` by two divisions: what lies above `op` and then above `lenA`. -/
theorem headerLenB_eq (c : Config) (h : Beat) : headerLenB c h = h / 4 / 2 ^ c.lenw % 2 ^ c.lenw := by
  rw [headerLenB, Nat.div_div_eq_div_mul, Nat.pow_add, Nat.mul_comm]

@[simp] theorem headerOp_encodeHeader (c : Config) (i : Instr) : headerOp (encodeHeader c i) = i.op := by
  apply Op.code_injective
  rw [headerOp, Op.code_ofCode, encodeHeader_eq, Nat.add_mul_mod_self_left, Nat.mod_eq_of_lt i.op.code_lt]

theorem headerLen_encodeHeader {c : Config} {i : Instr} (h : i.wf c = true) :
    headerLenA c (encodeHeader c i) = i.rA.length ∧ headerLenB c (encodeHeader c i) = i.rB.length := by
  obtain ⟨ha, hb⟩ := Instr.lengths_lt h
  constructor
  · rw [headerLenA, encodeHeader_div_four, Nat.add_mul_mod_self_left, Nat.mod_eq_of_lt ha]
  · rw [headerLenB_eq, encodeHeader_div_four, Nat.add_mul_div_left _ _ (Nat.two_pow_pos _), Nat.div_eq_of_lt ha, Nat.zero_add,
      Nat.mod_eq_of_lt hb]

/-- The header's width splits as its form does: 2 bits, then `LENW`, then `LENW`. -/
theorem two_pow_headerWidth (n : Nat) : 2 ^ (2 + 2 * n) = 4 * (2 ^ n * 2 ^ n) := by
  rw [Nat.pow_add, Nat.two_mul, Nat.pow_add]

theorem encodeHeader_lt {c : Config} {i : Instr} (h : i.wf c = true) : encodeHeader c i < 2 ^ (2 + 2 * c.lenw) := by
  obtain ⟨ha, hb⟩ := Instr.lengths_lt h
  have hlens : i.rA.length + 2 ^ c.lenw * i.rB.length < 2 ^ c.lenw * 2 ^ c.lenw := calc
    _ < 2 ^ c.lenw * (i.rB.length + 1) := by rw [Nat.mul_succ]; omega
    _ ≤ 2 ^ c.lenw * 2 ^ c.lenw := Nat.mul_le_mul_left _ hb
  have hop := i.op.code_lt
  rw [encodeHeader_eq, two_pow_headerWidth]
  omega

/-- A header of the frame's width is put together again from the fields that the decoder reads in it. -/
theorem header_recompose {c : Config} {h : Beat} (hlt : h < 2 ^ (2 + 2 * c.lenw)) :
    (headerOp h).code + 4 * headerLenA c h + 2 ^ (c.lenw + 2) * headerLenB c h = h := by
  have hquarter : h / 4 < 2 ^ c.lenw * 2 ^ c.lenw := Nat.div_lt_of_lt_mul (two_pow_headerWidth c.lenw ▸ hlt)
  have hB : headerLenB c h = h / 4 / 2 ^ c.lenw := by
    rw [headerLenB_eq, Nat.mod_eq_of_lt (Nat.div_lt_of_lt_mul hquarter)]
  calc (headerOp h).code + 4 * headerLenA c h + 2 ^ (c.lenw + 2) * headerLenB c h
      = h % 4 + 4 * (h / 4 % 2 ^ c.lenw + 2 ^ c.lenw * (h / 4 / 2 ^ c.lenw)) := by
        rw [headerOp, Op.code_ofCode, headerLenA, hB, Nat.pow_add]; ring
    _ = h := by rw [Nat.mod_add_div, Nat.mod_add_div]

/-- The fields stand at their bits (R77). -/
theorem header_testBit (c : Config) (h k : Nat) :
    (headerOp h).code.testBit k = (decide (k < 2) && h.testBit k) ∧
    (headerLenA c h).testBit k = (decide (k < c.lenw) && h.testBit (k + 2)) ∧
    (headerLenB c h).testBit k = (decide (k < c.lenw) && h.testBit (k + (c.lenw + 2))) := by
  refine ⟨?_, ?_, ?_⟩
  · rw [headerOp, Op.code_ofCode, show 4 = 2 ^ 2 from rfl, Nat.testBit_mod_two_pow]
  · rw [headerLenA, show 4 = 2 ^ 2 from rfl, Nat.testBit_mod_two_pow, Nat.testBit_div_two_pow]
  · rw [headerLenB, Nat.testBit_mod_two_pow, Nat.testBit_div_two_pow]

/-- A command with given field values: its operands are zeros, which every port carries (R73). -/
def Instr.onZeros (o : Op) (a b : Nat) : Instr := Instr.mk o (List.replicate a .b0) (List.replicate b .b0)

theorem Instr.wf_onZeros {c : Config} (o : Op) {a b : Nat} (ha : a ≤ c.lmax) (hb : b ≤ c.lmax) :
    (Instr.onZeros o a b).wf c = true := by
  have hzeros : ∀ n ≤ c.lmax, SymStr.wf c (List.replicate n .b0) = true := by simp +contextual [symStr_wf_iff]
  rw [instr_wf_iff, Instr.onZeros, Instr.mk_rA, Instr.mk_rB]
  exact ⟨hzeros a ha, hzeros b hb⟩

/-- Settles O2: the fields read off the header's form, their bits, and for every row of field values the header of a command
on zeros of those lengths. -/
theorem commandHeaderFields : Obligations.CommandHeaderFields := by
  intro c
  refine ⟨fun i hi => ⟨rfl, encodeHeader_lt hi, headerOp_encodeHeader c i, headerLen_encodeHeader hi⟩, header_testBit c,
    fun o a b ha hb => ⟨encodeHeader c (Instr.onZeros o a b), ?_⟩⟩
  have hlens := headerLen_encodeHeader (Instr.wf_onZeros o ha hb)
  rw [headerOp_encodeHeader, hlens.1, hlens.2]
  simp [Instr.onZeros]

/-! ## The frame -/

/-- Settles O4: the command that the decoder puts together, position by position. -/
theorem operandAssembly : Obligations.OperandAssembly := by
  intro c h body hl
  have hd := decodeCmd_eq_command.2 ⟨h, body, rfl, hl, rfl, rfl⟩
  refine ⟨_, hd, (instr_wf_iff c _).2 (decodeCmd_wf hd), Instr.mk_op .., ?_, ?_, fun k hk => ?_, fun k hk => ?_⟩
  · rw [Instr.mk_rA, List.length_map, List.length_take, Nat.min_eq_left (by omega)]
  · rw [Instr.mk_rB, List.length_map, List.length_take, List.length_drop, Nat.min_eq_left (by omega)]
  · rw [Instr.mk_rA, List.getElem?_map, List.getElem?_take_of_lt hk]
  · rw [Instr.mk_rB, List.getElem?_map, List.getElem?_take_of_lt hk, List.getElem?_drop]

/-- What the decoder answers when the payload announced is not there whole (R84). -/
theorem decodeCmd_short {c : Config} {h : Beat} {body : List Beat} (hs : body.length < headerLenA c h + headerLenB c h) :
    decodeCmd c (h :: body) = .awaitBeats (headerLenA c h + headerLenB c h - body.length) :=
  if_neg hs.not_ge

section
variable {c : Config} {i : Instr}

/-- Decoding an encoded command gives it back, whatever beats follow (R84). -/
theorem decodeCmd_encodeCmd (hi : i.wf c = true) (rest : List Beat) : decodeCmd c (encodeCmd c i ++ rest) = .command i rest := by
  obtain ⟨hA, hB⟩ := (instr_wf_iff c i).1 hi
  obtain ⟨hlenA, hlenB⟩ := headerLen_encodeHeader hi
  refine decodeCmd_eq_command.2 ⟨encodeHeader c i, i.rA.map Sym.code ++ i.rB.map Sym.code ++ rest, rfl, ?_⟩
  rw [hlenA, hlenB, headerOp_encodeHeader]
  refine ⟨by simp, ?_, by simp [← List.drop_drop]⟩
  simp [map_symOfBeat_code hA, map_symOfBeat_code hB]

/-- Encoding a decoded canonical frame gives it back (R84). -/
theorem encodeCmd_of_decodeCmd {f : List Beat} (hf : FrameCanonical c f) (hd : decodeCmd c f = .command i []) :
    encodeCmd c i = f := by
  obtain ⟨h, body, rfl, hl, rfl, hrest⟩ := decodeCmd_eq_command.1 hd
  obtain ⟨hhead, hcodes⟩ := hf
  have hlen : body.length = headerLenA c h + headerLenB c h :=
    Nat.le_antisymm (List.drop_eq_nil_iff.1 hrest.symm) hl
  have hheader := header_recompose (hhead h rfl)
  have hpayload : body.take (headerLenA c h) ++ (body.drop (headerLenA c h)).take (headerLenB c h) = body := by
    rw [← List.take_add, ← hlen, List.take_length]
  unfold encodeCmd encodeHeader
  refine congrArg₂ List.cons ?_ ?_
  · simpa [hlen] using hheader
  · rw [Instr.mk_rA, Instr.mk_rB, ← List.map_append, ← List.map_append, hpayload, List.map_map]
    exact map_code_symOfBeat hcodes

/-- A frame cut after its header is incomplete, and the decoder counts the beats that are missing (R84). -/
theorem decodeCmd_take_encodeCmd {n : Nat} (hi : i.wf c = true) (h0 : 0 < n) (hn : n < (encodeCmd c i).length) :
    decodeCmd c ((encodeCmd c i).take n) = .awaitBeats ((encodeCmd c i).length - n) := by
  obtain ⟨m, rfl⟩ := Nat.exists_eq_add_one.2 h0
  obtain ⟨hlenA, hlenB⟩ := headerLen_encodeHeader hi
  rw [encodeCmd_length] at hn
  have hm : ((i.rA.map Sym.code ++ i.rB.map Sym.code).take m).length = m := by
    simp only [List.length_take, List.length_append, List.length_map]; omega
  rw [encodeCmd_length, encodeCmd, List.take_succ_cons, decodeCmd_short (by rw [hm, hlenA, hlenB]; omega), hm, hlenA, hlenB]
  congr 1
  omega

/-- A cut frame, even one without its header, is no command. -/
theorem decodeCmd_take_ne_command {n : Nat} (hi : i.wf c = true) (hn : n < (encodeCmd c i).length) (j : Instr) (rest : List Beat) :
    decodeCmd c ((encodeCmd c i).take n) ≠ .command j rest := by
  cases n with
  | zero => simp [decodeCmd]
  | succ m => rw [decodeCmd_take_encodeCmd hi m.succ_pos hn]; simp

end

/-- With no command at the front of the port there is nothing to take. -/
theorem Machine.fetch_eq_none {s : Machine.State} (h : ∀ i rest, decodeCmd s.cfg s.cmdIn ≠ .command i rest) :
    Machine.fetch s = none := by
  refine Option.eq_none_iff_forall_ne_some.2 fun ⟨i, _⟩ hf => ?_
  obtain ⟨rest, hd, -⟩ := Machine.fetch_eq_some.1 hf
  exact h i rest hd

/-- Settles O1: the two round trips, and for a cut frame the count of the beats missing; an idle instance takes no command from it. -/
theorem frameCodecInverse : Obligations.FrameCodecInverse := by
  refine ⟨fun _ _ rest hi => decodeCmd_encodeCmd hi rest, fun _ _ _ hf hd => encodeCmd_of_decodeCmd hf hd,
    fun _ _ _ hi h0 hn => decodeCmd_take_encodeCmd hi h0 hn, fun s i n hp hr hi hn hport t ht => ?_⟩
  have hfetch : Machine.fetch s = none := Machine.fetch_eq_none (hport ▸ decodeCmd_take_ne_command hi hn)
  rw [Machine.step_wait hr hp hfetch] at ht
  cases ht
  rfl

end Sys2Proof
end

section
/-! PROOFS. The exclusive or (R100 to R104) and the operation XOR (R101). Length, positions, symmetry and `take` are the library's facts
of `List.zipWith`, by `xorBits_eq_zipWith`. With zeros of any length `n` as the right operand `xorBits` cuts to `n` bits, so that
associativity and `xorBits_self` give the cancellation. No law here asks for operands of equal length. -/

namespace Sys2Proof.Machine

/-! ## The laws of the exclusive or -/

@[simp] theorem length_xorBits (a b : BitStr) : (xorBits a b).length = min a.length b.length := by
  rw [xorBits_eq_zipWith, List.length_zipWith]

theorem getElem?_xorBits {a b : BitStr} {i : Nat} {x y : Bit} (ha : a[i]? = some x) (hb : b[i]? = some y) :
    (xorBits a b)[i]? = some (x ^^ y) := by
  rw [xorBits_eq_zipWith, List.getElem?_zipWith, ha, hb]

theorem xorBits_comm (a b : BitStr) : xorBits a b = xorBits b a := by
  rw [xorBits_eq_zipWith, xorBits_eq_zipWith, List.zipWith_comm_of_comm Bool.xor_comm]

theorem take_xorBits (a b : BitStr) (k : Nat) : (xorBits a b).take k = xorBits (a.take k) (b.take k) := by
  rw [xorBits_eq_zipWith, xorBits_eq_zipWith, List.take_zipWith]

theorem xorBits_self (a : BitStr) : xorBits a a = zeros a.length := by
  simp [xorBits_eq_zipWith, List.zipWith_self, zeros]

/-- Zeros change no bit, and still cut to their own length. -/
theorem xorBits_zeros (a : BitStr) (n : Nat) : xorBits a (zeros n) = a.take n := by
  induction a generalizing n with
  | nil => simp
  | cons x a ih =>
    cases n with
    | zero => simp
    | succ n => simp [zeros_succ, ih]

theorem xorBits_assoc (a b c : BitStr) : xorBits (xorBits a b) c = xorBits a (xorBits b c) := by
  induction a generalizing b c with
  | nil => simp
  | cons x a ih =>
    cases b with
    | nil => simp
    | cons y b =>
      cases c with
      | nil => simp
      | cons z c => simp [ih]

/-- Combining with the same string twice leaves the bits that it reaches. -/
theorem xorBits_xorBits_cancel (a b : BitStr) : xorBits (xorBits a b) b = a.take b.length := by
  rw [xorBits_assoc, xorBits_self, xorBits_zeros]

/-- R104 (e), for which a leading position of both is enough; the division drops this bit (R110). -/
theorem head?_xorBits {a b : BitStr} (ha : 1 ≤ a.length) (hab : a.head? = b.head?) : (xorBits a b).head? = some false := by
  obtain ⟨x, hx⟩ := Option.isSome_iff_exists.1 (List.isSome_head?.2 (List.ne_nil_of_length_pos ha))
  have hy : b.head? = some x := hab ▸ hx
  rw [List.head?_eq_getElem?] at hx hy ⊢
  rw [getElem?_xorBits hx hy, Bool.xor_self]

/-- Settles O10: the length and the positions of a `List.zipWith`. -/
theorem xorBitsPositionwise : Obligations.XorBitsPositionwise :=
  fun a b => ⟨length_xorBits a b, fun _ _ _ => getElem?_xorBits⟩

/-- Settles O11: each position's exclusive or is symmetric. -/
theorem xorSymmetry : Obligations.XorSymmetry := xorBits_comm

/-- Settles O12: the laws above; where R104 asks for equal lengths, nothing is cut. -/
theorem xorLaws : Obligations.XorLaws := by
  refine ⟨length_xorBits, xorBits_self, fun a n => ?_, fun a b c hab _ => ⟨xorBits_assoc a b c, ?_⟩,
    fun a b _ ha hhead => head?_xorBits ha hhead, fun a b k _ => take_xorBits a b k⟩
  · rw [xorBits_zeros, List.take_eq_take_min, Nat.min_comm]
  · rw [xorBits_xorBits_cancel, ← hab, List.take_length]

/-! ## The operation -/

/-- For a ready host an idle instance starts the command whose frame is at the port, and takes the frame off it (R33, R75). -/
theorem step_encodeCmd {s : State} {i : Instr} {rest : List Beat} (hp : s.ph = .idle) (hr : s.rst = false)
    (hready : s.rspReady = true) (hi : i.wf s.cfg = true) (hport : s.cmdIn = encodeCmd s.cfg i ++ rest) :
    step s = exec i (s.withPort rest) := by
  have hfetch : fetch s = some (i, s.withPort rest) :=
    fetch_eq_some.2 ⟨rest, by rw [hport, decodeCmd_encodeCmd hi], rfl⟩
  exact step_issue hr (not_waitsForHost (.inl hready)) hp hfetch

/-- Settles O13: the two answers of ISSUE to an `XOR`, then the frame: its operation code, and the step that takes it. -/
theorem xorAnswersAtOnce : Obligations.XorAnswersAtOnce := by
  refine ⟨fun s rA rB hp => ⟨fun a b ha hb => ⟨exec_bits hp ha hb, ?_⟩, fun hc hx => exec_nonbits hp hc hx⟩,
    fun s rA rB rest hp hr hi hport => ⟨?_, fun hready => step_encodeCmd hp hr hready hi hport⟩, rfl⟩
  · rw [length_xorBits, bits?_length ha, bits?_length hb]
  · obtain ⟨-, hcode, -⟩ := Laws.FrameShape.xor rA rB s.cfg
    exact hcode

end Sys2Proof.Machine
end

section
/-! PROOFS. The division loop (R110 to R112, R115, R116, R120). `divStep_some` says of both branches at once what an iteration does: the
dropped bit 0 before the new working value is the gated combination of R111 before the untouched tail. `divide_induction` is the loop's
recursion. The buffer form needs one invariant: after `k` passes the buffer is `k` zeros before the working value. -/

namespace Sys2Proof.Machine

/-! ## One iteration -/

/-- The generator gated by the leading bit of the working value (R111). -/
def gatedGen (w g : BitStr) : BitStr := if w.head? = some true then g else zeros g.length

@[simp] theorem length_gatedGen (w g : BitStr) : (gatedGen w g).length = g.length := by
  rw [gatedGen]; split <;> simp

/-- Everything an iteration does, in both branches: it is defined there, and the bit it drops is 0 (R110, R111). -/
theorem divStep_some {w g w' : BitStr} (h : divStep w g = some w') :
    validGen g = true ∧ g.length ≤ w.length ∧ false :: w' = xorBits (gatedGen w g) (w.take g.length) ++ w.drop g.length := by
  have hg : validGen g = true := by
    by_contra hv
    rw [divStep_invalid (.inl (Bool.eq_false_iff.2 hv))] at h
    cases h
  have hl : g.length ≤ w.length := by
    by_contra hv
    rw [divStep_invalid (.inr (Nat.lt_of_not_le hv))] at h
    cases h
  refine ⟨hg, hl, ?_⟩
  obtain ⟨b, t, rfl⟩ := validGen_exists hg
  match w, hl with
  | true :: rest, hl =>
    rw [divStep_one hg hl] at h
    cases h
    rfl
  | false :: rest, hl =>
    rw [divStep_zero hg hl] at h
    cases h
    rw [gatedGen, if_neg (by simp), xorBits_comm, xorBits_zeros, List.take_take, Nat.min_self, List.take_append_drop]

theorem divStep_length {w g w' : BitStr} (h : divStep w g = some w') : w.length = w'.length + 1 := by
  obtain ⟨hg, hl, -⟩ := divStep_some h
  obtain ⟨v, hv, hlen⟩ := divStep_isSome hg hl
  rw [h] at hv
  cases hv
  exact hlen.symm

/-- Settles O24: `divStep_some` without the dropped bit. -/
theorem divStepOneFormula : Obligations.DivStepOneFormula := by
  intro w g hg hl
  obtain ⟨w', hs, -⟩ := divStep_isSome hg hl
  obtain ⟨-, -, hw'⟩ := divStep_some hs
  have hne : xorBits (gatedGen w g) (w.take g.length) ≠ [] := by
    have := (validGen_iff g).1 hg
    rw [← List.length_pos_iff, length_xorBits, length_gatedGen, List.length_take]; omega
  rw [hs]
  calc some w' = some (false :: w').tail := rfl
    _ = some ((xorBits (gatedGen w g) (w.take g.length)).tail ++ w.drop g.length) := by
      rw [hw', List.tail_append_of_ne_nil hne]

/-- Settles O23: the branches are `divStep_one` and `divStep_zero`; the tail is read off `divStep_some`. -/
theorem divStepBehaviour : Obligations.DivStepBehaviour := by
  intro w g hg hl
  obtain ⟨w', hs, hlen⟩ := divStep_isSome hg hl
  obtain ⟨-, -, hw'⟩ := divStep_some hs
  obtain ⟨h2, hghead⟩ := (validGen_iff g).1 hg
  refine ⟨w', hs, Nat.eq_sub_of_add_eq hlen, fun hone => ?_, fun hzero => ?_, fun i hi => ?_⟩
  · obtain ⟨rest, rfl⟩ := List.head?_eq_some_iff.1 hone
    rw [divStep_one hg hl] at hs
    refine ⟨head?_xorBits (by omega) ?_, (Option.some.inj hs).symm⟩
    rw [hghead, List.head?_take, if_neg (by omega), hone]
  · obtain ⟨rest, rfl⟩ := List.head?_eq_some_iff.1 hzero
    rw [divStep_zero hg hl] at hs
    exact (Option.some.inj hs).symm
  · have hwin : (xorBits (gatedGen w g) (w.take g.length)).length = g.length := by
      rw [length_xorBits, length_gatedGen, List.length_take]; omega
    calc w'[i - 1]? = (false :: w')[i]? := by rw [List.getElem?_cons, if_neg (by omega)]
      _ = w[i]? := by
        rw [hw', List.getElem?_append_right (by omega), hwin, List.getElem?_drop, Nat.add_sub_cancel' hi]

/-! ## The loop -/

/-- The loop's recursion (R112): what holds of a dividend shorter than the generator, and of one whenever it holds of what an iteration
leaves of it, holds of every dividend. -/
theorem divide_induction {g : BitStr} (hg : validGen g = true) {P : BitStr → Prop}
    (short : ∀ d, d.length < g.length → P d) (step : ∀ d w, divStep d g = some w → P w → P d) (d : BitStr) : P d := by
  induction hn : d.length generalizing d with
  | zero => exact short d (by have := (validGen_iff g).1 hg; omega)
  | succ n ih =>
    by_cases hl : d.length < g.length
    · exact short d hl
    · obtain ⟨w, hs, hw⟩ := divStep_isSome hg (Nat.le_of_not_lt hl)
      exact step d w hs (ih w (by omega))

/-- The raw remainder and its length (R116). -/
theorem polyDivide_isSome {g : BitStr} (hg : validGen g = true) (d : BitStr) :
    ∃ r, polyDivide d g = some r ∧ r.length = min d.length (g.length - 1) := by
  induction d using divide_induction hg with
  | short d hl => exact ⟨d, polyDivide_short hg hl, by omega⟩
  | step d w hs ih =>
    obtain ⟨r, hr, hlen⟩ := ih
    obtain ⟨-, hl, -⟩ := divStep_some hs
    have hw := divStep_length hs
    exact ⟨r, (polyDivide_step hs).trans hr, by omega⟩

theorem polyDivide_length {d g r : BitStr} (hg : validGen g = true) (hr : polyDivide d g = some r) :
    r.length = min d.length (g.length - 1) := by
  obtain ⟨r', hr', hlen⟩ := polyDivide_isSome hg d
  rw [hr] at hr'
  cases hr'
  exact hlen

theorem polyDivide_length_lt {d g r : BitStr} (hg : validGen g = true) (hr : polyDivide d g = some r) : r.length < g.length := by
  have h2 := (validGen_iff g).1 hg
  have hlen := polyDivide_length hg hr
  omega

/-- Settles O27: by the loop's recursion; and R116's example by running it. -/
theorem remainderLength : Obligations.RemainderLength :=
  ⟨fun d _ hg => polyDivide_isSome hg d, by decide⟩

/-- Settles O25: the two branches of the loop test, and the length of what the loop leaves. -/
theorem polyDivideRecursion : Obligations.PolyDivideRecursion := by
  intro d g hg
  refine ⟨polyDivide_short hg, fun hl => ?_, ?_⟩
  · obtain ⟨w, hs, -⟩ := divStep_isSome hg hl
    rw [hs, Option.bind_some, polyDivide_step hs]
  · obtain ⟨r, hr, -⟩ := polyDivide_isSome hg d
    exact ⟨r, hr, polyDivide_length_lt hg hr⟩

/-! ## The number of iterations -/

/-- As long as the loop runs, each iteration is defined and the length falls by one (R115). -/
theorem divIter_isSome {g : BitStr} (hg : validGen g = true) {k : Nat} {d : BitStr} (hk : k ≤ d.length + 1 - g.length) :
    ∃ w, divIter k d g = some w ∧ w.length = d.length - k := by
  induction k generalizing d with
  | zero => exact ⟨d, rfl, rfl⟩
  | succ k ih =>
    obtain ⟨v, hs, hv⟩ := divStep_isSome hg (w := d) (by omega)
    obtain ⟨w, hw, hlen⟩ := ih (d := v) (by omega)
    exact ⟨w, by rw [divIter_succ, hs, Option.bind_some, hw], by omega⟩

/-- After exactly `steps(D, G)` iterations the loop has reached its remainder (R115). -/
theorem divIter_divSteps {g : BitStr} (hg : validGen g = true) (d : BitStr) :
    divIter (divSteps d.length g.length) d g = polyDivide d g := by
  induction d using divide_induction hg with
  | short d hl =>
    have hzero : divSteps d.length g.length = 0 := by unfold divSteps; omega
    rw [hzero, polyDivide_short hg hl, divIter]
  | step d w hs ih =>
    obtain ⟨-, hl, -⟩ := divStep_some hs
    have hsucc : divSteps d.length g.length = divSteps w.length g.length + 1 := by
      have := divStep_length hs
      unfold divSteps; omega
    rw [hsucc, divIter_succ, hs, Option.bind_some, ih, polyDivide_step hs]

/-- Settles O26: the count by the loop's recursion, and each iteration's length by `divIter_isSome`. -/
theorem divisionStepCount : Obligations.DivisionStepCount := by
  intro d g hg
  refine ⟨(divIter_divSteps hg d).symm, fun k hk => ?_⟩
  obtain ⟨w, hw, hlen⟩ := divIter_isSome hg hk
  have := (validGen_iff g).1 hg
  exact ⟨w, hw, hlen, by omega⟩

/-- The last iteration taken off the end instead of the front. -/
theorem divIter_succ_last (k : Nat) (d g : BitStr) : divIter (k + 1) d g = (divIter k d g).bind (divStep · g) := by
  induction k generalizing d with
  | zero => simp [divIter]
  | succ k ih =>
    rw [divIter_succ, divIter_succ]
    cases divStep d g with
    | none => rfl
    | some w => exact ih w

/-! ## The buffer form -/

/-- One pass over a buffer whose first `i` bits are used up does one iteration on the others and leaves a 0 behind (R120). -/
theorem bufStep_zeros_append {w w' g : BitStr} (i : Nat) (h : divStep w g = some w') :
    bufStep (zeros i ++ w) i g = zeros (i + 1) ++ w' := by
  obtain ⟨-, -, hw'⟩ := divStep_some h
  have hzeros : zeros (i + 1) ++ w' = zeros i ++ false :: w' := by rw [zeros_add, List.append_assoc]; rfl
  have hbit : (zeros i ++ w)[i]? = w.head? := by
    rw [List.getElem?_append_right (zeros_length i).le, zeros_length, Nat.sub_self, List.head?_eq_getElem?]
  rw [hzeros, hw', bufStep, hbit]
  by_cases hone : w.head? = some true
  · rw [if_pos hone, gatedGen, if_pos hone, bufCombine, List.take_left' (zeros_length i), List.drop_left' (zeros_length i),
      ← List.drop_drop, List.drop_left' (zeros_length i), xorBits_comm, List.append_assoc]
  · rw [if_neg hone, gatedGen, if_neg hone, xorBits_comm, xorBits_zeros, List.take_take, Nat.min_self, List.take_append_drop]

/-- The invariant of the sliding window: the bits passed over are 0, and the rest is the working value (R120). -/
theorem bufIter_eq {k : Nat} {d g w : BitStr} (h : divIter k d g = some w) : bufIter k d g = zeros k ++ w := by
  induction k generalizing w with
  | zero => cases h; rfl
  | succ k ih =>
    rw [divIter_succ_last] at h
    obtain ⟨v, hv, hs⟩ := Option.bind_eq_some_iff.1 h
    rw [bufIter, ih hv, bufStep_zeros_append k hs]

/-- The window's loop does to the rest of the buffer what the division does to a working value. -/
theorem bufLoop_zeros_append {g : BitStr} (hg : validGen g = true) (w : BitStr) :
    ∀ i fuel, w.length ≤ fuel → some (bufLoop fuel (zeros i ++ w) i g) = polyDivide w g := by
  have hwindow : ∀ (i : Nat) (v : BitStr), (zeros i ++ v).length - i = v.length := by simp
  induction w using divide_induction hg with
  | short w hl =>
    intro i fuel _
    rw [polyDivide_short hg hl]
    cases fuel with
    | zero => rw [bufLoop, List.drop_left' (zeros_length i)]
    | succ fuel => rw [bufLoop, if_neg (by rw [hwindow]; omega), List.drop_left' (zeros_length i)]
  | step w w' hs ih =>
    intro i fuel hfuel
    obtain ⟨-, hl, -⟩ := divStep_some hs
    have hlen := divStep_length hs
    obtain ⟨n, rfl⟩ : ∃ n, fuel = n + 1 := ⟨fuel - 1, by omega⟩
    rw [bufLoop, if_pos (by rwa [hwindow]), bufStep_zeros_append i hs, polyDivide_step hs]
    exact ih (i + 1) n (by omega)

/-- Settles O29: the loops agree by the division's recursion; each pass's buffer is zeros before the working value. -/
theorem bufferFormAgrees : Obligations.BufferFormAgrees := by
  intro d g
  constructor
  · cases hg : validGen g with
    | true => exact (if_pos hg).trans (bufLoop_zeros_append hg d 0 d.length le_rfl)
    | false => simp [bufDivide, polyDivide, hg]
  · intro hg k hk
    obtain ⟨w, hw, hlen⟩ := divIter_isSome hg hk
    have := (validGen_iff g).1 hg
    rw [bufIter_eq hw]
    refine ⟨by rw [hw, List.drop_left' (zeros_length k)], ?_, fun j hj => ?_⟩
    · rw [List.length_append, zeros_length]; omega
    · rw [List.getElem?_append_left (by simpa using hj), zeros, List.getElem?_replicate_of_lt hj]

end Sys2Proof.Machine
end

section
/-! PROOFS. The remainder as a polynomial over GF(2) (R117, R121). `polyDivide_eq_some_iff` characterizes the raw remainder by its length
and its polynomial; a bit string is determined by these two (`BitStr.eq_of_poly_eq`). So R117 and the laws of R121 are facts about
`Polynomial` remainders, each with a comparison of lengths. -/

namespace Sys2Proof

open Polynomial

/-! ## The polynomial of a bit string -/

@[simp] theorem BitStr.poly_nil : BitStr.poly [] = 0 := by simp [BitStr.poly]

theorem BitStr.poly_cons (b : Bit) (s : BitStr) : BitStr.poly (b :: s) = (if b = true then X ^ s.length else 0) + s.poly := by
  rw [BitStr.poly, BitStr.poly, List.length_cons, Finset.sum_range_succ', add_comm]
  refine congrArg₂ _ (by simp) (Finset.sum_congr rfl fun i _ => ?_)
  rw [List.getElem?_cons_succ, show s.length + 1 - 1 - (i + 1) = s.length - 1 - i by omega]

@[simp] theorem BitStr.poly_cons_false (s : BitStr) : BitStr.poly (false :: s) = s.poly := by simp [BitStr.poly_cons]

@[simp] theorem BitStr.poly_cons_true (s : BitStr) : BitStr.poly (true :: s) = X ^ s.length + s.poly := by simp [BitStr.poly_cons]

theorem BitStr.poly_append (s t : BitStr) : BitStr.poly (s ++ t) = s.poly * X ^ t.length + t.poly := by
  induction s with
  | nil => simp
  | cons b s ih => cases b <;> simp [ih, pow_add, add_mul, add_assoc]

@[simp] theorem BitStr.poly_zeros (n : Nat) : BitStr.poly (zeros n) = 0 := by
  induction n with
  | zero => simp
  | succ n ih => rw [zeros_succ, BitStr.poly_cons_false, ih]

/-- Where nothing is cut, the exclusive or is the sum over GF(2). -/
theorem BitStr.poly_xorBits {a b : BitStr} (h : a.length = b.length) :
    BitStr.poly (Machine.xorBits a b) = a.poly + b.poly := by
  induction a generalizing b with
  | nil => cases List.length_eq_zero_iff.1 h.symm; simp
  | cons x a ih =>
    match b, h with
    | y :: b, h =>
      have hlen : a.length = b.length := Nat.succ.inj h
      rw [Machine.xorBits_cons, BitStr.poly_cons, BitStr.poly_cons, BitStr.poly_cons, ih hlen, Machine.length_xorBits, hlen, Nat.min_self,
        add_add_add_comm]
      cases x <;> cases y <;> simp [CharTwo.add_self_eq_zero]

theorem BitStr.degree_poly_true_cons {s : BitStr} (h : s.poly.degree < s.length) :
    (BitStr.poly (true :: s)).degree = s.length := by
  rw [BitStr.poly_cons_true, degree_add_eq_left_of_degree_lt (by rwa [degree_X_pow]), degree_X_pow]

theorem BitStr.degree_poly_lt (s : BitStr) : s.poly.degree < s.length := by
  induction s with
  | nil => simp
  | cons b s ih =>
    have hlt : (s.length : WithBot ℕ) < (s.length + 1 : ℕ) := by exact_mod_cast s.length.lt_succ_self
    cases b with
    | false => rw [BitStr.poly_cons_false]; exact ih.trans hlt
    | true => rw [BitStr.degree_poly_true_cons ih]; exact hlt

/-- Strings of one length that spell the same polynomial are equal: the leading bits are the coefficients above the others' degree. -/
theorem BitStr.eq_of_poly_eq {a b : BitStr} (hlen : a.length = b.length) (h : a.poly = b.poly) : a = b := by
  induction a generalizing b with
  | nil => exact (List.length_eq_zero_iff.1 hlen.symm).symm
  | cons x a ih =>
    match b, hlen with
    | y :: b, hcons =>
      have hlen : a.length = b.length := Nat.succ.inj hcons
      have ha : (BitStr.poly a).coeff b.length = 0 := coeff_eq_zero_of_degree_lt (hlen ▸ BitStr.degree_poly_lt a)
      have hb : (BitStr.poly b).coeff b.length = 0 := coeff_eq_zero_of_degree_lt (BitStr.degree_poly_lt b)
      rw [BitStr.poly_cons, BitStr.poly_cons, hlen] at h
      have hlead := congrArg (coeff · b.length) h
      have hxy : x = y := by cases x <;> cases y <;> simp [ha, hb] at hlead ⊢
      subst hxy
      rw [ih hlen (add_left_cancel h)]

theorem BitStr.poly_eq_zero_iff (s : BitStr) : s.poly = 0 ↔ Machine.isZero s = true := by
  have hzeros : Machine.isZero s = true ↔ s = zeros s.length := by
    simp [Machine.isZero, zeros, List.eq_replicate_iff]
  rw [hzeros]
  refine ⟨fun h => BitStr.eq_of_poly_eq (zeros_length _).symm (h.trans (BitStr.poly_zeros _).symm), fun h => ?_⟩
  rw [h, BitStr.poly_zeros]

namespace Machine

/-! ## The remainder -/

/-- A valid generator spells a polynomial whose degree is one below its length (R21). -/
theorem degree_poly_validGen {g : BitStr} (hg : validGen g = true) : g.poly.degree = (g.length - 1 : ℕ) := by
  obtain ⟨b, t, rfl⟩ := validGen_exists hg
  exact BitStr.degree_poly_true_cons (BitStr.degree_poly_lt _)

/-- A dividend shorter than the generator is below it in degree. -/
theorem poly_mod_of_short {d g : BitStr} (hg : validGen g = true) (hl : d.length ≤ g.length - 1) : d.poly % g.poly = d.poly := by
  have hdeg := degree_poly_validGen hg
  have hne : g.poly ≠ 0 := fun h => by simp [h] at hdeg
  rw [Polynomial.mod_eq_self_iff hne, hdeg]
  exact d.degree_poly_lt.trans_le (by exact_mod_cast hl)

/-- An iteration takes away a multiple of the generator (R111). -/
theorem divStep_poly {d g w : BitStr} (hs : divStep d g = some w) : w.poly % g.poly = d.poly % g.poly := by
  obtain ⟨-, hl, hw⟩ := divStep_some hs
  have hlen : (gatedGen d g).length = (d.take g.length).length := by simp [hl]
  have hdvd : g.poly ∣ (gatedGen d g).poly := by rw [gatedGen]; split <;> simp
  have hsum : w.poly = (gatedGen d g).poly * X ^ (d.drop g.length).length + d.poly := calc
    w.poly = BitStr.poly (false :: w) := (BitStr.poly_cons_false w).symm
    _ = (gatedGen d g).poly * X ^ (d.drop g.length).length + BitStr.poly (d.take g.length ++ d.drop g.length) := by
      rw [hw, BitStr.poly_append, BitStr.poly_append, BitStr.poly_xorBits hlen, add_mul, add_assoc]
    _ = _ := by rw [List.take_append_drop]
  rw [hsum, Polynomial.add_mod, EuclideanDomain.mod_eq_zero.2 (hdvd.mul_right _), zero_add]

theorem polyDivide_poly {d g r : BitStr} (hg : validGen g = true) (hr : polyDivide d g = some r) : r.poly = d.poly % g.poly := by
  induction d using divide_induction hg with
  | short d hl =>
    rw [polyDivide_short hg hl] at hr
    cases hr
    rw [poly_mod_of_short hg (by omega)]
  | step d w hs ih => rw [ih (polyDivide_step hs ▸ hr), divStep_poly hs]

/-- The raw remainder is the string of its length that spells the polynomial remainder (R116, R117). -/
theorem polyDivide_eq_some_iff {d g r : BitStr} (hg : validGen g = true) :
    polyDivide d g = some r ↔ r.length = min d.length (g.length - 1) ∧ r.poly = d.poly % g.poly := by
  refine ⟨fun hr => ⟨polyDivide_length hg hr, polyDivide_poly hg hr⟩, fun ⟨hlen, hpoly⟩ => ?_⟩
  obtain ⟨r', hr', hlen'⟩ := polyDivide_isSome hg d
  have hpoly' := polyDivide_poly hg hr'
  rw [hr', BitStr.eq_of_poly_eq (hlen'.trans hlen.symm) (hpoly'.trans hpoly.symm)]

/-- Dividends that agree in these two have the same raw remainder. -/
theorem polyDivide_congr {d e g : BitStr} (hg : validGen g = true) (hlen : min d.length (g.length - 1) = min e.length (g.length - 1))
    (hpoly : d.poly % g.poly = e.poly % g.poly) : polyDivide d g = polyDivide e g := by
  obtain ⟨r, hr, hrlen⟩ := polyDivide_isSome hg d
  rw [hr, eq_comm, polyDivide_eq_some_iff hg, ← hlen, ← hpoly]
  exact ⟨hrlen, polyDivide_poly hg hr⟩

/-- The raw remainder has no 1 bit exactly where the generator divides the dividend (R117). -/
theorem isZero_remainder_iff {d g r : BitStr} (hg : validGen g = true) (hr : polyDivide d g = some r) :
    isZero r = true ↔ g.poly ∣ d.poly := by
  rw [← BitStr.poly_eq_zero_iff, polyDivide_poly hg hr, EuclideanDomain.mod_eq_zero]

/-- Settles O28: the two directions of `polyDivide_eq_some_iff`, and divisibility as a zero remainder. -/
theorem remainderValue : Obligations.RemainderValue := by
  intro d g hg
  obtain ⟨r, hr, -⟩ := polyDivide_isSome hg d
  refine ⟨r, hr, polyDivide_poly hg hr, fun r' hlen hpoly => ?_, isZero_remainder_iff hg hr⟩
  exact Option.some.inj (((polyDivide_eq_some_iff hg).2 ⟨hlen, hpoly⟩).symm.trans hr)

/-! ## The laws of R121 -/

section
variable {g : BitStr} (hg : validGen g = true)
include hg

theorem polyDivide_self : polyDivide g g = some (zeros (g.length - 1)) := by
  rw [polyDivide_eq_some_iff hg, EuclideanDomain.mod_self, BitStr.poly_zeros, zeros_length]
  exact ⟨by omega, rfl⟩

theorem polyDivide_zeros (n : Nat) : polyDivide (zeros n) g = some (zeros (min n (g.length - 1))) := by
  rw [polyDivide_eq_some_iff hg, BitStr.poly_zeros, BitStr.poly_zeros, zeros_length, zeros_length, EuclideanDomain.zero_mod]
  exact ⟨rfl, rfl⟩

/-- Leading zeros of a dividend that fills the window do not matter (R121 (c)). -/
theorem polyDivide_false_cons {d : BitStr} (hl : g.length - 1 ≤ d.length) : polyDivide (false :: d) g = polyDivide d g :=
  polyDivide_congr hg (by rw [List.length_cons]; omega) (by rw [BitStr.poly_cons_false])

theorem polyDivide_idem {d r : BitStr} (hr : polyDivide d g = some r) : polyDivide r g = some r :=
  polyDivide_short hg (polyDivide_length_lt hg hr)

/-- Division is linear (R121 (e)). -/
theorem polyDivide_xorBits {d₁ d₂ r₁ r₂ : BitStr} (hlen : d₁.length = d₂.length) (h₁ : polyDivide d₁ g = some r₁)
    (h₂ : polyDivide d₂ g = some r₂) : polyDivide (xorBits d₁ d₂) g = some (xorBits r₁ r₂) := by
  obtain ⟨hl₁, hp₁⟩ := (polyDivide_eq_some_iff hg).1 h₁
  obtain ⟨hl₂, hp₂⟩ := (polyDivide_eq_some_iff hg).1 h₂
  have hr : r₁.length = r₂.length := by rw [hl₁, hl₂, hlen]
  rw [polyDivide_eq_some_iff hg, length_xorBits, length_xorBits, ← hr, ← hlen, Nat.min_self, Nat.min_self,
    BitStr.poly_xorBits hlen, BitStr.poly_xorBits hr, Polynomial.add_mod, hp₁, hp₂]
  exact ⟨hl₁, rfl⟩

/-- The tail law: the front of the dividend may be divided first (R121 (g)). -/
theorem polyDivide_append {d r : BitStr} (hr : polyDivide d g = some r) (t : BitStr) :
    polyDivide (d ++ t) g = polyDivide (r ++ t) g := by
  obtain ⟨hlen, hpoly⟩ := (polyDivide_eq_some_iff hg).1 hr
  have hmod : d.poly % g.poly = r.poly % g.poly := by rw [← hpoly, poly_mod_of_short hg (by omega)]
  refine polyDivide_congr hg (by rw [List.length_append, List.length_append]; omega) ?_
  rw [BitStr.poly_append, BitStr.poly_append, Polynomial.add_mod, Polynomial.mul_mod, hmod, ← Polynomial.mul_mod, ← Polynomial.add_mod]

end

/-- Settles O30: the laws above, in the order of R121. -/
theorem polyDivideLaws : Obligations.PolyDivideLaws := by
  intro g hg
  refine ⟨polyDivide_self hg, polyDivide_zeros hg, fun d => ⟨polyDivide_false_cons hg, fun hl => ?_⟩,
    fun _ _ => polyDivide_idem hg, fun _ _ _ _ => polyDivide_xorBits hg, fun _ _ => polyDivide_length_lt hg,
    fun _ t _ hr => ⟨polyDivide_append hg hr t, fun ht => ?_⟩⟩
  · exact polyDivide_short hg (by rw [List.length_cons]; omega)
  · have := polyDivide_length_lt hg hr
    rw [List.length_append]; omega

end Machine

end Sys2Proof
end

section
/-! PROOFS. A command from its frame to its response (R113, R118, R231). `command_cases` says that a command which a frame can carry is
either answered by ISSUE or starts a division. For the second kind `step_starts_division` is the ISSUE, `run_divIter` the DIVSTEPs, and
`completionResponse_inFlight` the response that COMPLETE then forms, for the three operations at once by way of their dividend. -/

namespace Sys2Proof.Machine

/-! ## Which commands start a division -/

/-- What ISSUE loads into `W` for an operation on bits (R33): the padded message for ENC, else the first operand. -/
def dividend : Op → BitStr → BitStr → BitStr
  | .enc, m, g => pad m g
  | .xor, a, _ => a
  | .div, d, _ => d
  | .ver, c, _ => c

/-- What makes a command start a division: it is no `XOR`, and its operands are bits with a valid generator. -/
structure StartsOn (i : Instr) (a b : BitStr) : Prop where
  bitsA : bits? i.rA = some a
  bitsB : bits? i.rB = some b
  notXor : i.op ≠ .xor
  valid : validGen b = true

/-- An operand that the port can carry and that is no bit string needs the third symbol (R73). -/
theorem symchk_of_nonbits {c : Config} {i : Instr} (hi : i.wf c = true) (hx : (isBits i.rA && isBits i.rB) = false) :
    c.symchk = true := by
  by_contra hc
  have hbits : ∀ r, SymStr.wf c r = true → isBits r = true := fun r hr => by
    obtain ⟨-, hs⟩ := (symStr_wf_iff c r).1 hr
    exact (isBits_iff r).2 fun hm => hs.resolve_left hc _ hm rfl
  obtain ⟨hA, hB⟩ := (instr_wf_iff c i).1 hi
  rw [hbits _ hA, hbits _ hB] at hx
  cases hx

/-- A command that a frame can carry is answered by ISSUE, with the response of the function level, or starts a division. -/
theorem command_cases {c : Config} {i : Instr} (hi : i.wf c = true) :
    (∃ r, issueResponse c i = some r ∧ respondTo c i = some r ∧ startsDivision c i = false) ∨
      ∃ a b, StartsOn i a b := by
  obtain ⟨a, b, ha, hb, hr⟩ | ⟨hx, hc, hr⟩ | ⟨hx, hc, hr⟩ := readOperands_cases c i.rA i.rB
  · by_cases hs : i.op ≠ .xor ∧ validGen b = true
    · exact .inr ⟨a, b, ha, hb, hs.1, hs.2⟩
    · left
      cases ho : i.op with
      | xor => simp [issueResponse, respondTo, respondBits, startsDivision, hr, ho]
      | div | enc | ver =>
        have hv : validGen b = false := by simpa [ho] using hs
        simp [issueResponse, respondTo, respondBits, encode, verify, polyDivide, startsDivision, hr, ho, hv]
  · left
    cases ho : i.op <;> simp [issueResponse, respondTo, startsDivision, hr, ho]
  · rw [symchk_of_nonbits hi hx] at hc
    cases hc

section
variable {i : Instr} {a b : BitStr} (hs : StartsOn i a b)
include hs

theorem StartsOn.issueResponse (c : Config) : issueResponse c i = none := by
  obtain ⟨ha, hb, hx, hv⟩ := hs
  rw [Machine.issueResponse, readOperands_of_bits ha hb]
  cases ho : i.op <;> simp_all

theorem StartsOn.startsDivision (c : Config) : startsDivision c i = true := by
  obtain ⟨ha, hb, hx, hv⟩ := hs
  rw [Machine.startsDivision, readOperands_of_bits ha hb]
  cases ho : i.op <;> simp_all

theorem StartsOn.respondTo (c : Config) : respondTo c i = some (respondBits i.op a b) := by
  rw [Machine.respondTo, readOperands_of_bits hs.bitsA hs.bitsB]

/-- The count of R231 is that of R115 on the dividend. -/
theorem StartsOn.divStepCount : divStepCount i = divSteps (dividend i.op a b).length b.length := by
  obtain ⟨ha, hb, hx, hv⟩ := hs
  have h2 := (validGen_iff b).1 hv
  rw [Machine.divStepCount]
  cases ho : i.op with
  | xor => exact absurd ho hx
  | div | ver => rw [dividend, bits?_length ha, bits?_length hb]
  | enc => rw [dividend, pad_length, bits?_length ha]; simp only [divSteps]; omega

theorem StartsOn.totalSteps (c : Config) : totalSteps c i = divSteps (dividend i.op a b).length b.length + 1 + 1 := by
  rw [Machine.totalSteps, if_pos (hs.startsDivision c), hs.divStepCount]

end

/-! ## A command in flight -/

/-- The state with the operation's division started, and iterated until the working value is `w`. -/
def inFlight (s : State) (o : Op) (a b w : BitStr) : State := { issued s o a b with w := w }

section
variable {o : Op} {b : BitStr} (ho : o ≠ .xor) (hv : validGen b = true)
include ho hv

/-- ISSUE starts the division on the dividend. -/
theorem issued_eq_inFlight (s : State) (a : BitStr) : issued s o a b = inFlight s o a b (dividend o a b) := by
  cases o with
  | xor => exact absurd rfl ho
  | div | enc | ver => simp [inFlight, issued, hv, dividend, State.loadDivision]

/-- The registers that the loop works on, and what a command in flight has not changed. -/
theorem inFlight_fields (s : State) (a w : BitStr) :
    (inFlight s o a b w).ph = .run ∧ (inFlight s o a b w).w = w ∧ (inFlight s o a b w).g = b ∧
      (inFlight s o a b w).rst = s.rst ∧ (inFlight s o a b w).cfg = s.cfg ∧ (inFlight s o a b w).cmdIn = s.cmdIn ∧
      (inFlight s o a b w).rspTaken = s.rspTaken ∧ (inFlight s o a b w).rspReady = s.rspReady := by
  cases o with
  | xor => exact absurd rfl ho
  | div | enc | ver => simp [inFlight, issued, hv]

/-- What COMPLETE answers at the division's remainder is the function level's response (R35, R118). -/
theorem completionResponse_inFlight (s : State) {a r : BitStr} (hr : polyDivide (dividend o a b) b = some r) :
    completionResponse (inFlight s o a b r) = respondBits o a b := by
  cases o with
  | xor => exact absurd rfl ho
  | div | enc | ver =>
    rw [dividend] at hr
    simp [completionResponse, inFlight, issued, hv, respondBits, encode, verify, hr]

end

/-! ## Runs -/

theorem setReady_eq_self {s : State} {ready : Bool} (h : s.rspReady = ready) : s.setReady ready = s := by subst h; rfl

/-- The ISSUE of a command that starts a division waits for no host (R229). -/
theorem step_starts_division {s : State} {i : Instr} {a b : BitStr} {rest : List Beat} (hp : s.ph = .idle) (hr : s.rst = false)
    (hd : decodeCmd s.cfg s.cmdIn = .command i rest) (hs : StartsOn i a b) :
    step s = .next (issued (s.withPort rest) i.op a b) := by
  have ho : offered s = none := by rw [offered_idle hp hd, hs.issueResponse]
  rw [step_issue hr (not_waitsForHost (.inr ho)) hp (fetch_eq_some.2 ⟨rest, hd, rfl⟩)]
  exact exec_bits hp hs.bitsA hs.bitsB

/-- DIVSTEPs of a command in flight iterate on `W` and change nothing else (R34). -/
theorem run_divIter {s : State} {k : Nat} {w : BitStr} (hp : s.ph = .run) (hr : s.rst = false) (h : divIter k s.w s.g = some w) :
    Host.Core.run core k s = .next { s with w := w } := by
  induction k generalizing s with
  | zero => cases h; rfl
  | succ k ih =>
    rw [divIter_succ] at h
    obtain ⟨v, hv, hw⟩ := Option.bind_eq_some_iff.1 h
    obtain ⟨-, hl, -⟩ := divStep_some hv
    rw [core_run_succ k (step_divStep hp hr hl hv)]
    exact ih (s := { s with w := v }) hp hr hw

/-- The step of an idle instance with a ready host and a command that ISSUE answers (R33). -/
theorem step_answers {s : State} {i : Instr} {rest : List Beat} {r : Response} (hp : s.ph = .idle) (hr : s.rst = false)
    (hready : s.rspReady = true) (hd : decodeCmd s.cfg s.cmdIn = .command i rest) (hi : issueResponse s.cfg i = some r) :
    step s = .next ((s.withPort rest).respond r) := by
  rw [step_issue hr (not_waitsForHost (.inl hready)) hp (fetch_eq_some.2 ⟨rest, hd, rfl⟩)]
  exact exec_of_issueResponse hp hi

section
variable {s : State} {i : Instr} {a b : BitStr} {rest : List Beat} (hp : s.ph = .idle) (hr : s.rst = false)
  (hd : decodeCmd s.cfg s.cmdIn = .command i rest) (hs : StartsOn i a b)
include hp hr hd hs

/-- From its frame on, a command that starts a division runs ISSUE and then DIVSTEPs on its dividend (R118). -/
theorem run_division {k : Nat} {w : BitStr} (h : divIter k (dividend i.op a b) b = some w) :
    Host.Core.run core (k + 1) s = .next (inFlight (s.withPort rest) i.op a b w) := by
  obtain ⟨hph, hw, hg, hrst, -⟩ := inFlight_fields hs.notXor hs.valid (s.withPort rest) a (dividend i.op a b)
  rw [core_run_succ k (step_starts_division hp hr hd hs), issued_eq_inFlight hs.notXor hs.valid]
  exact run_divIter hph (hrst.trans hr) (by rw [hw, hg, h])

/-- For a ready host it then runs COMPLETE on the remainder (R118). -/
theorem run_command (hready : s.rspReady = true) {r : BitStr} (h : polyDivide (dividend i.op a b) b = some r) :
    Host.Core.run core (divSteps (dividend i.op a b).length b.length + 1 + 1) s =
      .next (complete (inFlight (s.withPort rest) i.op a b r)) := by
  have hrun := run_division hp hr hd hs ((divIter_divSteps hs.valid _).trans h)
  obtain ⟨hph, hw, hg, hrst, -, -, -, hrdy⟩ := inFlight_fields hs.notXor hs.valid (s.withPort rest) a r
  rw [core_run_add core _ 1 hrun]
  exact core_run_succ 0 (step_complete hph (hrst.trans hr) (by rw [hw, hg]; exact polyDivide_length_lt hs.valid h) (hrdy.trans hready))

end

/-- Settles O55: a command that ISSUE answers takes that one step; one that starts a division takes the steps of `run_command`, and
its states on the way are those of `run_division`. -/
theorem commandReachesItsResponse : Obligations.CommandReachesItsResponse := by
  intro s i rest hp hr hi hport
  have hd : decodeCmd s.cfg s.cmdIn = .command i rest := by rw [hport, decodeCmd_encodeCmd hi]
  obtain ⟨r, hissue, hrespond, hstart⟩ | ⟨a, b, hs⟩ := command_cases hi
  · have htotal : totalSteps s.cfg i = 1 := by simp [totalSteps, hstart]
    have hstep : step (s.setReady true) = .next (((s.setReady true).withPort rest).respond r) :=
      step_answers hp hr rfl hd hissue
    rw [htotal]
    refine ⟨s, _, r, hrespond, rfl, (offered_idle hp hd).trans hissue, hstep, fun hready => ?_, hp, hr, rfl, rfl, rfl,
      fun k hk => ?_, fun h => ?_⟩
    · rw [setReady_eq_self hready] at hstep ⊢
      exact core_run_succ 0 hstep
    · obtain rfl : k = 0 := by omega
      exact ⟨s, rfl, rfl⟩
    · rw [hstart] at h
      cases h
  · obtain ⟨r, hrem, -⟩ := polyDivide_isSome hs.valid (dividend i.op a b)
    have hfields := inFlight_fields hs.notXor hs.valid (s.withPort rest) a
    obtain ⟨hph, hw, hg, hrst, hcfg, hcmdIn, htaken, hrdy⟩ := hfields r
    have hresp := completionResponse_inFlight hs.notXor hs.valid (s.withPort rest) hrem
    have hlt : (inFlight (s.withPort rest) i.op a b r).w.length < (inFlight (s.withPort rest) i.op a b r).g.length := by
      rw [hw, hg]; exact polyDivide_length_lt hs.valid hrem
    have hrun := run_division hp hr hd hs ((divIter_divSteps hs.valid _).trans hrem)
    rw [hs.totalSteps]
    refine ⟨_, _, _, hs.respondTo s.cfg, hrun, ?_, step_complete hph (hrst.trans hr) hlt rfl, fun hready => ?_, rfl,
      hrst.trans hr, hcfg, hcmdIn, congrArg₂ (· ++ [·]) htaken hresp, fun k hk => ?_, fun _ => ?_⟩
    · rw [offered_run hph, if_pos hlt, hresp]
    · rw [run_command hp hr hd hs hready hrem, setReady_eq_self (hrdy.trans hready)]
    · cases k with
      | zero => exact ⟨s, rfl, rfl⟩
      | succ k =>
        obtain ⟨v, hv, -⟩ := divIter_isSome hs.valid (Nat.le_of_lt_succ (Nat.lt_of_succ_lt_succ hk))
        obtain ⟨-, -, -, -, -, -, hvtaken, -⟩ := hfields v
        exact ⟨_, run_division hp hr hd hs hv, hvtaken⟩
    · obtain ⟨hph₁, hw₁, hg₁, -⟩ := hfields (dividend i.op a b)
      refine ⟨_, run_division hp hr hd hs rfl, hph₁, by rw [hs.divStepCount]; omega, hph, hlt, ?_⟩
      rw [hw₁, hg₁, hw, hrem]

/-- Settles O56: the two errors are ISSUE's one step, a valid divisor runs `run_command`; and the worked example by running it. -/
theorem divReturnsTheRemainder : Obligations.DivReturnsTheRemainder := by
  refine ⟨fun s rA rB rest hp hr hready hi hport => ?_, by decide⟩
  have hstep := step_encodeCmd hp hr hready hi hport
  obtain ⟨-, hcode, -⟩ := Laws.FrameShape.div rA rB s.cfg
  refine ⟨hcode, fun hx => ?_, fun d g hd hg => ⟨fun hv => ?_, fun hv => ?_⟩⟩
  · rw [hstep]
    exact exec_nonbits hp (symchk_of_nonbits hi hx) hx
  · rw [hstep, exec_bits (s := s.withPort rest) (i := .div rA rB) hp hd hg]
    exact congrArg _ (checkGenerator_invalid hv ..)
  · have hs : StartsOn (.div rA rB) d g := ⟨hd, hg, nofun, hv⟩
    obtain ⟨r, hrem, hlen⟩ := polyDivide_isSome hv d
    have hdecode : decodeCmd s.cfg s.cmdIn = .command (.div rA rB) rest := by rw [hport, decodeCmd_encodeCmd hi]
    have hrun := run_command hp hr hdecode hs hready hrem
    have hcomplete : complete (inFlight (s.withPort rest) .div d g r) =
        { s with opr := .div, w := r, g := g, cmdIn := rest, rspTaken := s.rspTaken ++ [⟨.ok, false, r⟩], rspPart := [] } := by
      rw [inFlight, issued, checkGenerator_valid hv, complete_eq, ← hp]
      rfl
    rw [bits?_length hd, bits?_length hg] at hlen
    refine ⟨r, hrem, hlen, ?_⟩
    rw [← hcomplete, ← bits?_length hd, ← bits?_length hg]
    exact hrun

end Sys2Proof.Machine
end

section
/-! PROOFS. The padded dividend, the normalized remainder and the code word (R140 to R148). `encode_eq_some_iff` says once what a code
word is: the message before the raw remainder of the padded message, which is `g - 1` bits long and so needs no normalizing. Each law of
`encode` is then a law of the division (R121) on the padded message. -/

namespace Sys2Proof

/-! ## Padding and normalizing -/

theorem BitStr.poly_pad (m g : BitStr) : (Machine.pad m g).poly = m.poly * Polynomial.X ^ (g.length - 1) := by
  rw [Machine.pad, BitStr.poly_append, BitStr.poly_zeros, zeros_length, add_zero]

/-- A message with as many bits behind it as a checksum has spells the padded message plus those bits. -/
theorem BitStr.poly_append_checksum (m : BitStr) {g r : BitStr} (hlen : r.length = g.length - 1) :
    BitStr.poly (m ++ r) = (Machine.pad m g).poly + r.poly := by
  rw [BitStr.poly_append, hlen, BitStr.poly_pad]

theorem BitStr.poly_normBits (r : BitStr) (n : Nat) : (Machine.normBits r n).poly = r.poly := by
  rw [Machine.normBits, BitStr.poly_append, BitStr.poly_zeros, zero_mul, zero_add]

namespace Machine

theorem normBits_of_length {r : BitStr} {n : Nat} (h : r.length = n) : normBits r n = r := by
  rw [normBits, h, Nat.sub_self, zeros_zero, List.nil_append]

theorem pad_zeros (n : Nat) (g : BitStr) : pad (zeros n) g = zeros (n + (g.length - 1)) := (zeros_add ..).symm

/-- Fronts of one length are combined with each other, and so are the tails. -/
theorem xorBits_append {a b : BitStr} (h : a.length = b.length) (c d : BitStr) :
    xorBits (a ++ c) (b ++ d) = xorBits a b ++ xorBits c d := by
  simp only [xorBits_eq_zipWith, List.zipWith_append h]

/-- Padding is linear: the padding is zeros on both sides. -/
theorem pad_xorBits {m₁ m₂ : BitStr} (h : m₁.length = m₂.length) (g : BitStr) :
    pad (xorBits m₁ m₂) g = xorBits (pad m₁ g) (pad m₂ g) := by
  rw [pad, pad, pad, xorBits_append h, xorBits_self, zeros_length]

/-- Settles O31: R140 and R141, each by the definition and the lemmas on its length and its polynomial. -/
theorem padAndNorm : Obligations.PadAndNorm := by
  refine ⟨fun m g hg => ⟨rfl, ?_, BitStr.poly_pad m g⟩,
    fun r n hl => ⟨rfl, normBits_length hl, normBits_of_length, BitStr.poly_normBits r n⟩⟩
  rw [pad_length, Nat.add_sub_assoc hg]

/-! ## The code word -/

section
variable {g : BitStr} (hg : validGen g = true)
include hg

/-- A padded message is long enough to leave a remainder of the checksum's full width (R144). -/
theorem polyDivide_pad_length {m r : BitStr} (hr : polyDivide (pad m g) g = some r) : r.length = g.length - 1 := by
  rw [polyDivide_length hg hr, pad_length, Nat.min_eq_right (Nat.le_add_left ..)]

/-- What a code word is (R142, R144). -/
theorem encode_eq_some_iff {m c : BitStr} :
    encode m g = some c ↔ ∃ r, polyDivide (pad m g) g = some r ∧ r.length = g.length - 1 ∧ c = m ++ r := by
  rw [encode, Option.map_eq_some_iff]
  refine exists_congr fun r => and_congr_right fun hr => ?_
  have hlen := polyDivide_pad_length hg hr
  rw [normBits_of_length hlen, eq_comm]
  exact (and_iff_right hlen).symm

theorem encode_of_polyDivide_pad {m r : BitStr} (hr : polyDivide (pad m g) g = some r) : encode m g = some (m ++ r) :=
  (encode_eq_some_iff hg).2 ⟨r, hr, polyDivide_pad_length hg hr, rfl⟩

theorem encode_isSome (m : BitStr) : ∃ c, encode m g = some c := by
  obtain ⟨r, hr, -⟩ := polyDivide_isSome hg (pad m g)
  exact ⟨m ++ r, encode_of_polyDivide_pad hg hr⟩

theorem encode_length {m c : BitStr} (hc : encode m g = some c) : c.length = m.length + g.length - 1 := by
  obtain ⟨r, -, hlen, rfl⟩ := (encode_eq_some_iff hg).1 hc
  obtain ⟨h2, -⟩ := (validGen_iff g).1 hg
  rw [List.length_append]; omega

/-- The code is systematic (R142, R148 (a)). -/
theorem take_of_encode {m c : BitStr} (hc : encode m g = some c) : c.take m.length = m := by
  obtain ⟨r, -, -, rfl⟩ := (encode_eq_some_iff hg).1 hc
  exact List.take_left

/-- The code word spells the padded message plus its remainder (R147). -/
theorem poly_of_encode {m c : BitStr} (hc : encode m g = some c) : c.poly = (pad m g).poly + (pad m g).poly % g.poly := by
  obtain ⟨r, hr, hlen, rfl⟩ := (encode_eq_some_iff hg).1 hc
  rw [BitStr.poly_append_checksum m hlen, polyDivide_poly hg hr]

/-- The padded message's remainder and the checksum are one string, so they cancel over GF(2) (R147, R148 (b)). -/
theorem polyDivide_of_encode {m c : BitStr} (hc : encode m g = some c) : polyDivide c g = some (zeros (g.length - 1)) := by
  obtain ⟨r, hr, hlen, rfl⟩ := (encode_eq_some_iff hg).1 hc
  have hmod : BitStr.poly (m ++ r) % g.poly = 0 := calc
    BitStr.poly (m ++ r) % g.poly = (pad m g).poly % g.poly + r.poly % g.poly := by
      rw [BitStr.poly_append_checksum m hlen, Polynomial.add_mod]
    _ = r.poly + r.poly := by rw [← polyDivide_poly hg hr, poly_mod_of_short hg hlen.le]
    _ = 0 := CharTwo.add_self_eq_zero _
  rw [polyDivide_eq_some_iff hg, hmod, BitStr.poly_zeros, zeros_length, List.length_append, hlen]
  exact ⟨(Nat.min_eq_right (Nat.le_add_left ..)).symm, rfl⟩

/-- A message of zeros has a code word of zeros (R148 (c), R146). -/
theorem encode_zeros (n : Nat) : encode (zeros n) g = some (zeros (n + (g.length - 1))) := by
  have hr : polyDivide (pad (zeros n) g) g = some (zeros (g.length - 1)) := by
    rw [pad_zeros, polyDivide_zeros hg, Nat.min_eq_right (Nat.le_add_left ..)]
  rw [encode_of_polyDivide_pad hg hr, zeros_add]

/-- Encoding is linear: padding and division both are (R148 (d)). -/
theorem encode_xorBits {m₁ m₂ c₁ c₂ : BitStr} (hlen : m₁.length = m₂.length) (h₁ : encode m₁ g = some c₁)
    (h₂ : encode m₂ g = some c₂) : encode (xorBits m₁ m₂) g = some (xorBits c₁ c₂) := by
  obtain ⟨r₁, hr₁, -, rfl⟩ := (encode_eq_some_iff hg).1 h₁
  obtain ⟨r₂, hr₂, -, rfl⟩ := (encode_eq_some_iff hg).1 h₂
  have hpad : (pad m₁ g).length = (pad m₂ g).length := by rw [pad_length, pad_length, hlen]
  have hr : polyDivide (pad (xorBits m₁ m₂) g) g = some (xorBits r₁ r₂) := by
    rw [pad_xorBits hlen, polyDivide_xorBits hg hpad hr₁ hr₂]
  rw [encode_of_polyDivide_pad hg hr, xorBits_append hlen]

/-- The code word's length gives the message's length, and the message is its front (R148 (e)). -/
theorem encode_injective {m₁ m₂ : BitStr} (h : encode m₁ g = encode m₂ g) : m₁ = m₂ := by
  obtain ⟨c, h₁⟩ := encode_isSome hg m₁
  have h₂ : encode m₂ g = some c := h ▸ h₁
  have hlen : m₁.length = m₂.length := by
    have := encode_length hg h₁
    have := encode_length hg h₂
    obtain ⟨h2, -⟩ := (validGen_iff g).1 hg
    omega
  rw [← take_of_encode hg h₁, hlen, take_of_encode hg h₂]

end

/-- Settles O32: the raw remainder of the padded message has the checksum's width already. -/
theorem encodeIsSystematic : Obligations.EncodeIsSystematic := by
  intro m g hg
  obtain ⟨r, hr, -⟩ := polyDivide_isSome hg (pad m g)
  have hlen := polyDivide_pad_length hg hr
  have hnorm := normBits_of_length hlen
  have hc := encode_of_polyDivide_pad hg hr
  refine ⟨r, hr, ?_, hlen, hnorm, ?_⟩
  · rw [hnorm, hc]
  · rw [hnorm, encode_length hg hc]

/-- Settles O34: the code word's remainder is zeros, in which there is no 1 bit. -/
theorem roundTripValidity : Obligations.RoundTripValidity := by
  intro m g hg
  obtain ⟨c, hc⟩ := encode_isSome hg m
  have hrem := polyDivide_of_encode hg hc
  have hzero : isZero (zeros (g.length - 1)) = true := (BitStr.poly_eq_zero_iff _).1 (BitStr.poly_zeros _)
  exact ⟨c, hc, by rw [verify, hrem, Option.map_some, hzero], hrem, BitStr.poly_pad m g ▸ poly_of_encode hg hc⟩

/-- Settles O35: the laws above. -/
theorem encodeLaws : Obligations.EncodeLaws := by
  intro g hg
  refine ⟨fun m c hc => ⟨take_of_encode hg hc, polyDivide_of_encode hg hc⟩, fun n => ?_,
    fun m₁ m₂ c₁ c₂ => encode_xorBits hg, fun m₁ m₂ => encode_injective hg⟩
  obtain ⟨h2, -⟩ := (validGen_iff g).1 hg
  rw [encode_zeros hg, Nat.add_sub_assoc (by omega)]

/-- Settles O33: the empty message is the one of no zeros (`encode_zeros`), and its padded dividend is shorter than the generator. -/
theorem emptyMessageEncodes : Obligations.EmptyMessageEncodes := by
  intro c rB g hb hg
  have hcode : encode [] g = some (zeros (g.length - 1)) := by simpa using encode_zeros hg 0
  have hshort : (pad [] g).length < g.length := by
    obtain ⟨h2, -⟩ := (validGen_iff g).1 hg
    rw [pad_length, List.length_nil]; omega
  have hs : StartsOn (.enc [] rB) [] g := ⟨bits?_nil, hb, nofun, hg⟩
  refine ⟨hcode, ?_, (polyDivide_short hg hshort).symm⟩
  rw [hs.respondTo, Instr.op, respondBits, hcode]
  rfl

end Machine

end Sys2Proof
end

section
/-! PROOFS. ENC from its frame to its response (R143). The two errors are one step of any command that takes a generator; the division
is `run_command`, with the state after COMPLETE written out by `complete_inFlight_enc`. -/

namespace Sys2Proof.Machine

section
variable {s : State} {i : Instr} {rest : List Beat} (hp : s.ph = .idle) (hr : s.rst = false) (hready : s.rspReady = true)
  (hi : i.wf s.cfg = true) (hport : s.cmdIn = encodeCmd s.cfg i ++ rest)
include hp hr hready hi hport

/-- A command with an operand that is no bit string takes one step, from its frame to `MalformedInput` (R183). -/
theorem step_reports_malformedInput (hx : (isBits i.rA && isBits i.rB) = false) :
    step s = .next { s with cmdIn := rest, rspTaken := s.rspTaken ++ [⟨.malformedInput, false, []⟩], rspPart := [] } := by
  rw [step_encodeCmd hp hr hready hi hport]
  exact exec_nonbits hp (symchk_of_nonbits hi hx) hx

/-- A command on bits whose generator is not valid takes one step, from its frame to `InvalidGenerator` (R182). -/
theorem step_reports_invalidGenerator {a b : BitStr} (ho : i.op ≠ .xor) (ha : bits? i.rA = some a) (hb : bits? i.rB = some b)
    (hv : validGen b = false) :
    step s = .next { s with cmdIn := rest, rspTaken := s.rspTaken ++ [⟨.invalidGenerator, false, []⟩], rspPart := [] } := by
  have hbad : issued (s.withPort rest) i.op a b = (s.withPort rest).takeError .invalidGenerator := by
    cases hop : i.op with
    | xor => exact absurd hop ho
    | div | enc | ver => exact checkGenerator_invalid hv ..
  rw [step_encodeCmd hp hr hready hi hport, exec_bits (s := s.withPort rest) hp ha hb, hbad]
  rfl

end

/-- The state after COMPLETE of an ENC that started in `s`, with `rest` left at the port (R33, R35). -/
theorem complete_inFlight_enc {m g r c : BitStr} (hg : validGen g = true) (hr : polyDivide (pad m g) g = some r)
    (hc : encode m g = some c) {s : State} (hp : s.ph = .idle) (rest : List Beat) :
    complete (inFlight (s.withPort rest) .enc m g r) =
      { s with opr := .enc, w := r, g := g, msg := m, cmdIn := rest, rspTaken := s.rspTaken ++ [⟨.ok, false, c⟩], rspPart := [] } := by
  have hresp : completionResponse (inFlight (s.withPort rest) .enc m g r) = ⟨.ok, false, c⟩ := by
    rw [completionResponse_inFlight (o := .enc) nofun hg _ hr, respondBits, hc]
    rfl
  rw [complete_eq, hresp, inFlight, issued, checkGenerator_valid hg, ← hp]
  rfl

/-- Settles O57: the two errors are ISSUE's one step, a valid generator runs `run_command`, with one DIVSTEP for each bit of the
message; and the worked example by running it. -/
theorem encReturnsTheCodeWord : Obligations.EncReturnsTheCodeWord := by
  refine ⟨fun s rA rB rest hp hr hready hi hport => ?_, by decide⟩
  obtain ⟨-, hcode, -⟩ := Laws.FrameShape.enc rA rB s.cfg
  refine ⟨hcode, step_reports_malformedInput hp hr hready hi hport, fun m g hm hg =>
    ⟨step_reports_invalidGenerator hp hr hready hi hport nofun hm hg, fun hv => ?_⟩⟩
  have hs : StartsOn (.enc rA rB) m g := ⟨hm, hg, nofun, hv⟩
  obtain ⟨r, hrem, -⟩ := polyDivide_isSome hv (pad m g)
  have hc := encode_of_polyDivide_pad hv hrem
  have hlen := encode_length hv hc
  have hdecode : decodeCmd s.cfg s.cmdIn = .command (.enc rA rB) rest := by rw [hport, decodeCmd_encodeCmd hi]
  have hrun := run_command hp hr hdecode hs hready hrem
  have hsteps : rA.length = divSteps (dividend .enc m g).length g.length := hs.divStepCount
  rw [bits?_length hm, bits?_length hg] at hlen
  refine ⟨m ++ r, r, hc, hlen, hrem, ?_⟩
  rw [← complete_inFlight_enc hv hrem hc hp, hsteps]
  exact hrun

end Sys2Proof.Machine
end

section
/-! PROOFS. The verdict of VER (R160 to R166). `verify_eq_some_iff` says once what the verdict is: whether the generator divides the code
word. A single-bit flip adds a power of `x` to the code word, so the flip goes undetected exactly where the generator divides that power
(`poly_dvd_X_pow_iff`): a divisor of a power of `x` is itself one. -/

namespace Sys2Proof

open Polynomial

/-! ## Strings with no 1 bit -/

namespace Machine

theorem isZero_iff_getElem? (r : BitStr) : isZero r = true ↔ ∀ i, i < r.length → r[i]? = some false := by
  simp only [isZero, List.all_eq_true, Bool.not_eq_true', List.forall_mem_iff_getElem]
  exact forall₂_congr fun i hi => by rw [List.getElem?_eq_getElem hi, Option.some.injEq]

/-- Leading zeros do not matter to `isZero`. -/
theorem isZero_normBits (r : BitStr) (n : Nat) : isZero (normBits r n) = isZero r := by
  rw [Bool.eq_iff_iff, ← BitStr.poly_eq_zero_iff, ← BitStr.poly_eq_zero_iff, BitStr.poly_normBits]

/-- Settles O36: position by position, and leading zeros leave the polynomial as it is. -/
theorem isZeroMeansNoOneBit : Obligations.IsZeroMeansNoOneBit :=
  ⟨isZero_iff_getElem?, rfl, isZero_normBits⟩

/-! ## The verdict -/

theorem verify_of_polyDivide {c g r : BitStr} (hr : polyDivide c g = some r) : verify c g = some (isZero r) := by
  rw [verify, hr, Option.map_some]

/-- What the verdict is (R165). -/
theorem verify_eq_some_iff {g : BitStr} (hg : validGen g = true) (c : BitStr) (v : Bool) :
    verify c g = some v ↔ (v = true ↔ g.poly ∣ c.poly) := by
  obtain ⟨r, hr, -⟩ := polyDivide_isSome hg c
  rw [verify_of_polyDivide hr, ← isZero_remainder_iff hg hr, Option.some.injEq, ← Bool.eq_iff_iff, eq_comm]

theorem verify_eq_true_iff {g : BitStr} (hg : validGen g = true) (c : BitStr) : verify c g = some true ↔ g.poly ∣ c.poly := by
  rw [verify_eq_some_iff hg, eq_self, true_iff]

/-- Settles O37: a short code word is its own remainder (R114), and only the empty one leaves a remainder of no bits (R116). -/
theorem shortCodeWords : Obligations.ShortCodeWords := by
  intro g hg
  obtain ⟨h2, -⟩ := (validGen_iff g).1 hg
  have hshort : ∀ c : BitStr, c.length < g.length → polyDivide c g = some c ∧ verify c g = some (isZero c) := fun c hl =>
    have hr := polyDivide_short hg hl
    ⟨hr, verify_of_polyDivide hr⟩
  refine ⟨hshort, (hshort [] (by rw [List.length_nil]; omega)).2, fun c hr => ?_⟩
  have hlen := polyDivide_length hg hr
  rw [List.length_nil] at hlen
  exact List.length_eq_zero_iff.1 (by omega)

/-- Every code word verifies (R147). -/
theorem verify_of_encode {m c g : BitStr} (hg : validGen g = true) (hc : encode m g = some c) : verify c g = some true := by
  rw [verify_of_polyDivide (polyDivide_of_encode hg hc), (BitStr.poly_eq_zero_iff _).1 (BitStr.poly_zeros _)]

/-- Settles O38: each consequence is a divisibility; a 0 before the code word leaves its polynomial, one after it multiplies by `x`. -/
theorem verdictIsDivisibility : Obligations.VerdictIsDivisibility := by
  intro g hg
  have hverdict := verify_eq_true_iff hg
  refine ⟨hverdict, fun n => ?_, (hverdict g).2 dvd_rfl, fun m c => verify_of_encode hg, fun c hc => ?_⟩
  · rw [hverdict, BitStr.poly_zeros]
    exact dvd_zero _
  · have hdvd := (hverdict c).1 hc
    rw [hverdict, hverdict, BitStr.poly_cons_false, BitStr.poly_append, BitStr.poly_cons_false, BitStr.poly_nil, add_zero]
    exact ⟨hdvd, hdvd.mul_right _⟩

end Machine

/-! ## Single-bit flips -/

/-- A flipped bit adds its power of `x` over GF(2) (R166). -/
theorem BitStr.poly_flipBit {s : BitStr} {i : Nat} (hi : i < s.length) :
    (flipBit s i).poly = s.poly + X ^ (s.length - 1 - i) := by
  induction s generalizing i with
  | nil => cases hi
  | cons b s ih =>
    cases i with
    | zero =>
      have hflip : flipBit (b :: s) 0 = (!b) :: s := rfl
      rw [hflip]
      cases b with
      | false => simp [add_comm]
      | true => simp [add_right_comm, CharTwo.add_self_eq_zero]
    | succ i =>
      have hflip : flipBit (b :: s) (i + 1) = b :: flipBit s i := rfl
      have hlen : (flipBit s i).length = s.length := List.length_modify ..
      rw [hflip, BitStr.poly_cons, BitStr.poly_cons, hlen, ih (Nat.lt_of_succ_lt_succ hi), ← add_assoc, List.length_cons,
        show s.length + 1 - 1 - (i + 1) = s.length - 1 - i by omega]

namespace Machine

section
variable {g : BitStr} (hg : validGen g = true)
include hg

theorem monic_poly_validGen : g.poly.Monic := by
  obtain ⟨b, t, rfl⟩ := validGen_exists hg
  rw [BitStr.poly_cons_true]
  exact monic_X_pow_add (BitStr.degree_poly_lt _)

/-- The weak generators spell a power of `x` (R166). -/
theorem weakGen_iff_poly : weakGen g = true ↔ g.poly = X ^ (g.length - 1) := by
  have h2 := (validGen_iff g).1 hg
  have hlen : g.length = (true :: zeros (g.length - 1)).length := by rw [List.length_cons, zeros_length]; omega
  have hpoly : BitStr.poly (true :: zeros (g.length - 1)) = X ^ (g.length - 1) := by
    rw [BitStr.poly_cons_true, BitStr.poly_zeros, zeros_length, add_zero]
  rw [weakGen, decide_eq_true_eq, ← hpoly]
  exact ⟨congrArg BitStr.poly, BitStr.eq_of_poly_eq hlen⟩

/-- `x` is prime, so a generator that divides a power of `x` is one: the weak generators, up to that power. -/
theorem poly_dvd_X_pow_iff (k : Nat) : g.poly ∣ X ^ k ↔ weakGen g = true ∧ g.length - 1 ≤ k := by
  rw [weakGen_iff_poly hg]
  constructor
  · intro hdvd
    obtain ⟨j, hj, hassoc⟩ := (dvd_prime_pow prime_X k).1 hdvd
    have hpow : g.poly = X ^ j := eq_of_monic_of_associated (monic_poly_validGen hg) (monic_X_pow j) hassoc
    have hdeg := degree_poly_validGen hg
    rw [hpow, degree_X_pow, Nat.cast_inj] at hdeg
    exact hdeg ▸ ⟨hpow, hj⟩
  · rintro ⟨hpow, hk⟩
    rw [hpow]
    exact pow_dvd_pow X hk

/-- A weak generator divides every padded message, so the checksum is all zeros (R166). -/
theorem encode_weakGen (hw : weakGen g = true) (m : BitStr) : encode m g = some (m ++ zeros (g.length - 1)) := by
  have hpow := (weakGen_iff_poly hg).1 hw
  have hmod : (pad m g).poly % g.poly = 0 := by
    rw [BitStr.poly_pad, hpow, EuclideanDomain.mod_eq_zero]
    exact dvd_mul_left ..
  apply encode_of_polyDivide_pad hg
  rw [polyDivide_eq_some_iff hg, hmod, BitStr.poly_zeros, zeros_length, pad_length]
  exact ⟨(Nat.min_eq_right (Nat.le_add_left ..)).symm, rfl⟩

end

/-- Settles O39: the code word is a multiple of the generator, so what counts is the power of `x` that the flip adds; it reaches the
generator's degree exactly in the message part. -/
theorem singleBitDetection : Obligations.SingleBitDetection := by
  intro m g c i hg hc hi
  refine ⟨?_, fun hw => Option.some.inj (hc.symm.trans (encode_weakGen hg hw m))⟩
  have hdvd : g.poly ∣ c.poly := (verify_eq_true_iff hg c).1 (verify_of_encode hg hc)
  have hpart : g.length - 1 ≤ c.length - 1 - i ↔ i < m.length := by
    have hlen := encode_length hg hc
    obtain ⟨h2, -⟩ := (validGen_iff g).1 hg
    omega
  rw [verify_eq_some_iff hg, BitStr.poly_flipBit hi, dvd_add_right hdvd, poly_dvd_X_pow_iff hg, hpart, Bool.and_eq_true,
    decide_eq_true_eq]

end Machine

end Sys2Proof
end

section
/-! PROOFS. VER from its frame to its response (R163). As for ENC, the two errors are one step and the division is `run_command`; the
state after COMPLETE is written out by `complete_inFlight_ver`. -/

namespace Sys2Proof.Machine

/-- The state after COMPLETE of a VER that started in `s`, with `rest` left at the port (R33, R35). -/
theorem complete_inFlight_ver {g : BitStr} (hg : validGen g = true) {s : State} (hp : s.ph = .idle) (rest : List Beat) (c r : BitStr) :
    complete (inFlight (s.withPort rest) .ver c g r) =
      { s with opr := .ver, w := r, g := g, cmdIn := rest, rspTaken := s.rspTaken ++ [⟨.ok, isZero r, []⟩], rspPart := [] } := by
  rw [complete_eq, inFlight, issued, checkGenerator_valid hg, ← hp]
  rfl

/-- Settles O58: the two errors are ISSUE's one step, a valid generator runs `run_command` on the code word as received; and the worked
examples by running them. -/
theorem verReturnsTheVerdict : Obligations.VerReturnsTheVerdict := by
  refine ⟨fun s rA rB rest hp hr hready hi hport => ?_, by decide, by decide⟩
  obtain ⟨-, hcode, -⟩ := Laws.FrameShape.ver rA rB s.cfg
  refine ⟨hcode, step_reports_malformedInput hp hr hready hi hport, fun c g hc hg =>
    ⟨step_reports_invalidGenerator hp hr hready hi hport nofun hc hg, fun hv => ?_⟩⟩
  have hs : StartsOn (.ver rA rB) c g := ⟨hc, hg, nofun, hv⟩
  obtain ⟨r, hrem, -⟩ := polyDivide_isSome hv c
  have hdecode : decodeCmd s.cfg s.cmdIn = .command (.ver rA rB) rest := by rw [hport, decodeCmd_encodeCmd hi]
  have hrun := run_command hp hr hdecode hs hready hrem
  refine ⟨isZero r, r, verify_of_polyDivide hrem, hrem, ?_⟩
  rw [← complete_inFlight_ver hv hp, ← bits?_length hc, ← bits?_length hg]
  exact hrun

end Sys2Proof.Machine
end

section
/-! PROOFS. When the two errors are the answer (R181 to R183, R185). `exec_answers_iff` ties ISSUE to `issueResponse`, a function of the
parameters and the command alone: that is R181, and R182 and R183 then only say when this function names the one error or the other. -/

namespace Sys2Proof.Machine

/-! ## The operands that make a command fail -/

theorem nonbits_iff (rA rB : SymStr) : (isBits rA && isBits rB) = false ↔ Sym.other ∈ rA ∨ Sym.other ∈ rB := by
  rw [← Bool.not_eq_true, Bool.and_eq_true, isBits_iff, isBits_iff, not_and_or, not_not, not_not]

theorem exists_bits {rA rB : SymStr} (h : (isBits rA && isBits rB) = true) : ∃ a b, bits? rA = some a ∧ bits? rB = some b := by
  rw [Bool.and_eq_true, ← bits?_isSome, ← bits?_isSome, Option.isSome_iff_exists, Option.isSome_iff_exists] at h
  obtain ⟨⟨a, ha⟩, b, hb⟩ := h
  exact ⟨a, b, ha, hb⟩

/-- The leading bit of an operand is the bit of its leading symbol. -/
theorem bits?_head? {r : SymStr} {s : BitStr} (h : bits? r = some s) : s.head? = r.head?.bind symBit := by
  cases r with
  | nil => cases h; rfl
  | cons x r =>
    rw [bits?_cons, Option.bind_eq_some_iff] at h
    obtain ⟨b, hx, hr⟩ := h
    obtain ⟨bs, -, rfl⟩ := Option.map_eq_some_iff.1 hr
    exact hx.symm

/-- The generators that are not valid, by their symbols (R182): empty, one bit, or a leading 0. -/
theorem validGen_eq_false_iff {r : SymStr} {g : BitStr} (h : bits? r = some g) :
    validGen g = false ↔ r.length = 0 ∨ r.length = 1 ∨ (2 ≤ r.length ∧ r.head? = some .b0) := by
  rw [← Bool.not_eq_true, validGen_iff, bits?_length h, bits?_head? h]
  match r with
  | [] => simp
  | [x] => simp
  | x :: y :: r =>
    cases x with
    | b0 | b1 => simp [symBit]
    | other => simp [bits?_cons, symBit] at h

/-! ## The response of ISSUE -/

@[simp] theorem error_inj (e e' : CrcError) : Response.error e = Response.error e' ↔ e = e' := by
  cases e <;> cases e' <;> decide

@[simp] theorem okBits_ne_error (r : BitStr) (e : CrcError) : Response.okBits r ≠ Response.error e := by
  cases e <;> simp [Response.okBits, Response.error, CrcError.status]

/-- On two bit strings ISSUE fails only where an operation that takes a generator gets one that is not valid (R33). -/
theorem issueResponse_bits {c : Config} {i : Instr} {a b : BitStr} (ha : bits? i.rA = some a) (hb : bits? i.rB = some b) :
    issueResponse c i =
      if i.op = .xor then some (Response.okBits (xorBits a b))
      else if validGen b then none else some (Response.error .invalidGenerator) := by
  rw [issueResponse, readOperands_of_bits ha hb]
  cases i.op <;> rfl

/-- On a non-bit the one answer is `MalformedInput`, where the port can carry the command at all (R183). -/
theorem issueResponse_nonbits {c : Config} {i : Instr} (hx : (isBits i.rA && isBits i.rB) = false) :
    issueResponse c i = if c.symchk then some (Response.error .malformedInput) else none := by
  obtain ⟨a, b, ha, hb, -⟩ | ⟨-, hc, hr⟩ | ⟨-, hc, hr⟩ := readOperands_cases c i.rA i.rB
  · rw [← bits?_isSome, ← bits?_isSome, ha, hb] at hx
    cases hx
  · rw [issueResponse, hr, hc]
    rfl
  · rw [issueResponse, hr, hc]
    rfl

theorem issueResponse_malformedInput_iff (c : Config) (i : Instr) :
    issueResponse c i = some (Response.error .malformedInput) ↔ c.symchk = true ∧ (Sym.other ∈ i.rA ∨ Sym.other ∈ i.rB) := by
  rw [← nonbits_iff]
  cases hx : isBits i.rA && isBits i.rB with
  | false => simp [issueResponse_nonbits hx]
  | true =>
    obtain ⟨a, b, ha, hb⟩ := exists_bits hx
    rw [issueResponse_bits ha hb]
    split_ifs <;> simp

theorem issueResponse_invalidGenerator_iff (c : Config) (i : Instr) :
    issueResponse c i = some (Response.error .invalidGenerator) ↔
      i.op ≠ .xor ∧ isBits i.rA = true ∧ isBits i.rB = true ∧
        (i.rB.length = 0 ∨ i.rB.length = 1 ∨ (2 ≤ i.rB.length ∧ i.rB.head? = some .b0)) := by
  rw [← and_assoc (a := isBits i.rA = true), ← Bool.and_eq_true]
  cases hx : isBits i.rA && isBits i.rB with
  | false => simp [issueResponse_nonbits hx]
  | true =>
    obtain ⟨a, b, ha, hb⟩ := exists_bits hx
    rw [issueResponse_bits ha hb, ← validGen_eq_false_iff hb]
    split_ifs with ho hv
    · simp [ho]
    · simp [hv]
    · simp [ho, hv]

/-- A response that ISSUE hands over is the one `issueResponse` names. -/
theorem issueResponse_of_exec {s t : State} {i : Instr} {r : Response} (h : exec i s = .next t)
    (ht : t.rspTaken = s.rspTaken ++ [r]) : issueResponse s.cfg i = some r := by
  obtain ⟨hp, -⟩ := exec_next_cases h
  cases hi : issueResponse s.cfg i with
  | none =>
    obtain ⟨-, hnone, -⟩ := exec_of_issueResponse_none hi h
    simp [hnone] at ht
  | some q =>
    rw [exec_of_issueResponse hp hi] at h
    cases h
    simpa using ht

/-- What an idle instance answers to a command depends on its parameters and the command alone (R181). -/
theorem exec_answers_iff {s : State} {i : Instr} (hp : s.ph = .idle) (r : Response) :
    exec i s = .next (s.respond r) ↔ issueResponse s.cfg i = some r :=
  ⟨fun h => issueResponse_of_exec h rfl, exec_of_issueResponse hp⟩

theorem completionResponse_status (s : State) : (completionResponse s).status = .ok := by
  unfold completionResponse
  cases s.opr <;> rfl

/-! ## The obligations -/

/-- Settles O19: the state of the statement is a response handed over, and `issueResponse` names it exactly in the cases of R182. -/
theorem invalidGeneratorExactly : Obligations.InvalidGeneratorExactly :=
  fun s i hp => (exec_answers_iff hp _).trans (issueResponse_invalidGenerator_iff s.cfg i)

/-- Settles O20: as O19, with the cases of R183. -/
theorem malformedInputExactly : Obligations.MalformedInputExactly :=
  fun s i hp => (exec_answers_iff hp _).trans (issueResponse_malformedInput_iff s.cfg i)

/-- Settles O21: the answer is `MalformedInput` whatever the generator is, by O20. -/
theorem malformedInputFirst : Obligations.MalformedInputFirst := by
  intro s rA rB o hp hc _ hx _
  refine (malformedInputExactly s (Instr.mk o rA rB) hp).2 ⟨hc, ?_⟩
  rwa [Instr.mk_rA, Instr.mk_rB]

/-- Settles O22: an error is a response of ISSUE, which the parameters and the command decide; a command in flight hands over nothing,
or COMPLETE's response. -/
theorem errorsOnlyAtIssue : Obligations.ErrorsOnlyAtIssue := by
  refine ⟨fun s t i e h ht => ?_, fun s t hp hr h => ?_⟩
  · have hi := issueResponse_of_exec h ht
    obtain ⟨hp, -⟩ := exec_next_cases h
    rw [exec_of_issueResponse hp hi] at h
    cases h
    exact ⟨rfl, fun u hu hcfg => exec_of_issueResponse hu (hcfg ▸ hi)⟩
  · obtain ⟨hr', -⟩ | ⟨-, -, rfl⟩ | ⟨-, -, -, -, rfl⟩ | ⟨-, -, -, -, w', -, rfl⟩ | ⟨-, -, -, -, rfl⟩ | ⟨-, -, hp', -⟩ :=
      step_next_cases h
    · rw [hr] at hr'; cases hr'
    · exact .inl rfl
    · exact .inr ⟨_, rfl, completionResponse_status s⟩
    · exact .inl rfl
    · exact .inl rfl
    · rw [hp] at hp'; cases hp'

end Sys2Proof.Machine
end

section
/-! PROOFS. RESET (R36, R220) and the commands that wait at the port: cut frames on an idle instance (R225), and any beats on a busy one
(R224). What RESET leaves of a cut frame, and what a busy instance can do at all, are said once; the obligations are read off them. -/

namespace Sys2Proof.Machine

/-! ## What RESET leaves at the port -/

/-- With no command at the front there is no whole frame, only the part of one (R220). -/
theorem wholeFrames_eq_nil {c : Config} {beats : List Beat} (h : ∀ i rest, decodeCmd c beats ≠ .command i rest) :
    wholeFrames c beats = [] := by
  cases beats with
  | nil => rfl
  | cons b bs =>
    rw [wholeFrames, List.length_cons, wholeFramesFuel]
    split
    · next hd => exact absurd hd (h _ _)
    · rfl
    · rfl

/-- RESET discards all that is at the port when that is no whole frame, in either phase (R220). -/
theorem portAfterReset_eq_nil {s : State} (h : ∀ i rest, decodeCmd s.cfg s.cmdIn ≠ .command i rest) : portAfterReset s = [] :=
  (portAfterReset_partial h).trans (wholeFrames_eq_nil h)

/-- RESET discards a command frame partly received (R220, R225). -/
theorem portAfterReset_cut {s : State} {i : Instr} {n : Nat} (hi : i.wf s.cfg = true) (hn : n < (encodeCmd s.cfg i).length)
    (hport : s.cmdIn = (encodeCmd s.cfg i).take n) : portAfterReset s = [] :=
  portAfterReset_eq_nil (hport ▸ decodeCmd_take_ne_command hi hn)

/-- With nothing at the port RESET leaves nothing there. -/
theorem portAfterReset_empty {s : State} (hport : s.cmdIn = []) : portAfterReset s = [] :=
  portAfterReset_eq_nil fun i rest hd => by rw [hport] at hd; cases hd

/-- A host cannot tell RESET from no step at all on an idle instance with nothing received and nothing partly sent (R220): it writes only
registers that no rule reads at `PH = IDLE`. -/
theorem applyReset_alike {s : State} (hp : s.ph = .idle) (hport : s.cmdIn = []) (hpart : s.rspPart = []) :
    (applyReset s).Alike { s with rst := false } :=
  ⟨rfl, hp.symm, (portAfterReset_empty hport).trans hport.symm, rfl, hpart.symm, rfl, rfl, fun hrun => by cases hrun⟩

/-! ## What a busy instance can do -/

/-- All that a step of a busy instance can do outside RESET (R34, R35, R37, R229); the command port has no part in it. -/
theorem step_next_cases_run {s t : State} (hp : s.ph = .run) (hr : s.rst = false) (h : step s = .next t) :
    (s.w.length < s.g.length ∧ s.rspReady = false ∧ t = s) ∨
    (s.w.length < s.g.length ∧ s.rspReady = true ∧ t = complete s) ∨
    (s.g.length ≤ s.w.length ∧ ∃ w', divStep s.w s.g = some w' ∧ t = { s with w := w' }) := by
  obtain hl | hl := lt_or_ge s.w.length s.g.length
  · cases hready : s.rspReady with
    | false =>
      rw [step_complete_waits hp hr hl hready] at h
      cases h
      exact .inl ⟨hl, rfl, rfl⟩
    | true =>
      rw [step_complete hp hr hl hready] at h
      cases h
      exact .inr (.inl ⟨hl, rfl, rfl⟩)
  · have hoffer : offered s = none := by rw [offered_run hp, if_neg hl.not_gt]
    rw [step_run hr (not_waitsForHost (.inr hoffer)) hp] at h
    obtain ⟨hl', -⟩ | hdiv := advance_next_cases h
    · exact absurd hl' hl.not_gt
    · exact .inr (.inr hdiv)

/-! ## The obligations -/

/-- Settles O44: a cut frame is no command; with the missing beats the port holds the whole frame, which the step takes; RESET leaves
nothing of the part. -/
theorem wholeFramesOnly : Obligations.WholeFramesOnly := by
  intro s i n hp hi hn hport
  refine ⟨fun hr => ⟨fun t h => ?_, fun more hready => ?_⟩, fun hr => ?_⟩
  · rw [step_wait hr hp (fetch_eq_none (hport ▸ decodeCmd_take_ne_command hi hn))] at h
    cases h
    rfl
  · have hwhole : (s.present ((encodeCmd s.cfg i).drop n ++ more)).cmdIn = encodeCmd s.cfg i ++ more := by
      rw [present_cmdIn, hport, ← List.append_assoc, List.take_append_drop]
    exact step_encodeCmd hp hr hready hi hwhole
  · exact ⟨applyReset s, step_reset hr, rfl, portAfterReset_cut hi hn hport⟩

/-- Settles O45: each part is a field of `applyReset`, or one of the two facts above about what RESET leaves. -/
theorem resetStep : Obligations.ResetStep := fun s hr =>
  ⟨applyReset s, step_reset hr, rfl, rfl, rfl, rfl, fun _ _ hi hn hport => portAfterReset_cut hi hn hport,
    fun hp hport hpart => applyReset_alike hp hport hpart⟩

/-- Settles O47: ISSUE needs `PH = IDLE`; each of the three steps of a busy instance leaves the port alone, and its conditions, which do
not look at the port, still hold when further beats are presented. -/
theorem busyInstanceTakesNoCommand : Obligations.BusyInstanceTakesNoCommand := by
  intro s hp
  refine ⟨fun i t h => ?_, fun hr t h => ?_⟩
  · obtain ⟨hidle, -⟩ := exec_next_cases h
    rw [hp] at hidle
    cases hidle
  · obtain ⟨hl, hslow, rfl⟩ | ⟨hl, hready, rfl⟩ | ⟨hl, w', hdiv, rfl⟩ := step_next_cases_run hp hr h
    · exact ⟨rfl, .inl rfl, fun _ => step_complete_waits hp hr hl hslow⟩
    · exact ⟨rfl, .inr ⟨rfl, rfl⟩, fun _ => step_complete hp hr hl hready⟩
    · exact ⟨rfl, .inl rfl, fun _ => step_divStep hp hr hl hdiv⟩

end Sys2Proof.Machine
end

section
/-! PROOFS. What a step can do, as a relation. `Transition s t` has one constructor for each kind of step (R33 to R37, R229) and says
exactly `step s = .next t`; the one way in which a step stops is a DIVSTEP on a generator that is not valid (`step_cases`). The
invariants, the noninterference and the port statements are case splits over these constructors. -/

namespace Sys2Proof.Machine

/-! ## The ISSUE that starts a division -/

/-- The value of `OPR` for an operation that divides (R25, R33). -/
def oprOf : Op → Opr
  | .enc => .enc
  | .ver => .ver
  | .div => .div
  | .xor => .div

theorem oprOf_eq_enc_iff (o : Op) : oprOf o = .enc ↔ o = .enc := by cases o <;> decide

/-- What an ISSUE that starts a division leaves: every register written out (R33). -/
def started (s : State) (o : Op) (a b : BitStr) : State :=
  { s with opr := oprOf o, g := b, w := dividend o a b, msg := if o = .enc then a else s.msg, ph := .run }

theorem issued_eq_started {o : Op} {b : BitStr} (ho : o ≠ .xor) (hv : validGen b = true) (s : State) (a : BitStr) :
    issued s o a b = started s o a b := by
  cases o with
  | xor => exact absurd rfl ho
  | div | enc | ver => exact checkGenerator_valid hv ..

/-- ISSUE on an idle instance, for a command that starts a division (R33). -/
theorem exec_starts {s : State} {i : Instr} {a b : BitStr} (hp : s.ph = .idle) (hs : StartsOn i a b) :
    exec i s = .next (started s i.op a b) := by
  rw [exec_bits hp hs.bitsA hs.bitsB, issued_eq_started hs.notXor hs.valid]

/-- Settles O14: `exec_starts`; DIV loads its first operand. -/
theorem divStartsDivision : Obligations.DivStartsDivision :=
  fun _ _ _ _ _ hp hd hg hv => exec_starts hp ⟨hd, hg, nofun, hv⟩

/-- Settles O15: `exec_starts`; ENC loads the padded message and keeps the message, with no condition on its length. -/
theorem encStartsDivision : Obligations.EncStartsDivision :=
  fun _ _ _ _ _ hp hm hg hv => exec_starts hp ⟨hm, hg, nofun, hv⟩

/-- Settles O16: `exec_starts`; VER loads the code word as it is. -/
theorem verStartsDivision : Obligations.VerStartsDivision :=
  fun _ _ _ _ _ hp hc hg hv => exec_starts hp ⟨hc, hg, nofun, hv⟩

/-! ## The ISSUE that has no meaning -/

/-- On a non-bit with no symbol check ISSUE refuses by name (R73, R183). -/
theorem exec_refused {s : State} {i : Instr} (hp : s.ph = .idle) (hc : s.cfg.symchk = false)
    (hx : (isBits i.rA && isBits i.rB) = false) : exec i s = .refused .notPresentable := by
  rw [exec_eq_issue]
  obtain ⟨hp', -⟩ | ⟨-, a, b, ha, hb, -⟩ | ⟨-, hc', -⟩ | ⟨-, -, -, he⟩ := issue_cases s i.rA i.rB (issued s i.op)
  · rw [hp] at hp'; cases hp'
  · rw [← bits?_isSome, ← bits?_isSome, ha, hb] at hx; cases hx
  · rw [hc] at hc'; cases hc'
  · exact he

/-- Settles O18: an operand that fits a 1-bit port is a bit string (`symchk_of_nonbits`), and a decoded command fits the port. -/
theorem otherNeedsSymbolCheck : Obligations.OtherNeedsSymbolCheck := by
  refine ⟨fun s i hp hc hx => exec_refused hp hc hx, fun c beats rest i hc hd => ?_⟩
  by_contra hx
  have hsym := symchk_of_nonbits ((instr_wf_iff c i).2 (decodeCmd_wf hd)) (Bool.eq_false_iff.2 hx)
  rw [hc] at hsym
  cases hsym

/-! ## The response offered -/

theorem offered_of_divStep {s : State} {w' : BitStr} (hp : s.ph = .run) (hs : divStep s.w s.g = some w') : offered s = none := by
  obtain ⟨-, hl, -⟩ := divStep_some hs
  rw [offered_run hp, if_neg hl.not_gt]

theorem offered_of_short {s : State} (hp : s.ph = .run) (hl : s.w.length < s.g.length) : offered s = some (completionResponse s) := by
  rw [offered_run hp, if_pos hl]

theorem offered_of_starts {s : State} {i : Instr} {rest : List Beat} {a b : BitStr} (hp : s.ph = .idle)
    (hd : decodeCmd s.cfg s.cmdIn = .command i rest) (hs : StartsOn i a b) : offered s = none := by
  rw [offered_idle hp hd, hs.issueResponse]

/-! ## Each kind of step -/

/-- The steps of an instance (R33 to R37) and the two ways in which it waits (R225, R229), each with the conditions that enable it. -/
inductive Transition (s : State) : State → Prop
  /-- RESET, in every state (R36). -/
  | reset (hr : s.rst = true) : Transition s (applyReset s)
  /-- A response is offered, and the host is not ready to take it (R229). -/
  | slow {r : Response} (hr : s.rst = false) (hslow : s.rspReady = false) (ho : offered s = some r) : Transition s s
  /-- An idle instance has no whole frame at its port (R37, R225). -/
  | noFrame (hr : s.rst = false) (hp : s.ph = .idle) (hd : ∀ i rest, decodeCmd s.cfg s.cmdIn ≠ .command i rest) : Transition s s
  /-- DIVSTEP (R34). -/
  | divStep {w' : BitStr} (hr : s.rst = false) (hp : s.ph = .run) (hs : divStep s.w s.g = some w') : Transition s { s with w := w' }
  /-- COMPLETE (R35). -/
  | complete (hr : s.rst = false) (hready : s.rspReady = true) (hp : s.ph = .run) (hl : s.w.length < s.g.length) :
      Transition s (complete s)
  /-- An ISSUE that hands its response over: an error, or the result of an `XOR` (R33). -/
  | answer {i : Instr} {rest : List Beat} {r : Response} (hr : s.rst = false) (hready : s.rspReady = true) (hp : s.ph = .idle)
      (hd : decodeCmd s.cfg s.cmdIn = .command i rest) (hi : issueResponse s.cfg i = some r) :
      Transition s ((s.withPort rest).respond r)
  /-- An ISSUE that starts a division (R33). -/
  | start {i : Instr} {rest : List Beat} {a b : BitStr} (hr : s.rst = false) (hp : s.ph = .idle)
      (hd : decodeCmd s.cfg s.cmdIn = .command i rest) (hs : StartsOn i a b) : Transition s (started (s.withPort rest) i.op a b)

/-- Each kind of step happens where its conditions hold. -/
theorem Transition.step_eq {s t : State} (h : Transition s t) : step s = .next t := by
  cases h with
  | reset hr => exact step_reset hr
  | slow hr hslow ho => exact step_slow hr ((waitsForHost_iff s).2 ⟨hslow, by rw [ho]; rfl⟩)
  | noFrame hr hp hd => exact step_wait hr hp (fetch_eq_none hd)
  | divStep hr hp hs =>
    obtain ⟨-, hl, -⟩ := divStep_some hs
    exact step_divStep hp hr hl hs
  | complete hr hready hp hl => exact step_complete hp hr hl hready
  | answer hr hready hp hd hi => exact step_answers hp hr hready hd hi
  | start hr hp hd hs => rw [step_starts_division hp hr hd hs, issued_eq_started hs.notXor hs.valid]

/-- A DIVSTEP on a generator that is not valid stops by name (R119). -/
theorem step_undefinedDivisor {s : State} (hp : s.ph = .run) (hr : s.rst = false) (hl : s.g.length ≤ s.w.length)
    (hv : validGen s.g = false) : step s = .fault .undefinedDivisor := by
  have ho : offered s = none := by rw [offered_run hp, if_neg hl.not_gt]
  rw [step_run hr (not_waitsForHost (.inr ho)) hp, advance, if_neg hl.not_gt, divStepStep, divStep_invalid (.inl hv)]

/-- Everything a step can do: one of the transitions, or the stop of a DIVSTEP without a valid generator (R37, R119). -/
theorem step_cases (s : State) :
    (∃ t, Transition s t) ∨ (s.ph = .run ∧ s.rst = false ∧ s.g.length ≤ s.w.length ∧ validGen s.g = false) := by
  cases hr : s.rst with
  | true => exact .inl ⟨_, .reset hr⟩
  | false =>
    by_cases hwait : s.rspReady = false ∧ ∃ r, offered s = some r
    · obtain ⟨hslow, r, ho⟩ := hwait
      exact .inl ⟨_, .slow hr hslow ho⟩
    have hready : ∀ r, offered s = some r → s.rspReady = true := fun r ho => by
      by_contra hslow
      exact hwait ⟨Bool.eq_false_iff.2 hslow, r, ho⟩
    obtain hp | hp := phase_cases s
    · obtain hl | hl := lt_or_ge s.w.length s.g.length
      · exact .inl ⟨_, .complete hr (hready _ (offered_of_short hp hl)) hp hl⟩
      · cases hv : validGen s.g with
        | false => exact .inr ⟨hp, rfl, hl, rfl⟩
        | true =>
          obtain ⟨w', hs, -⟩ := divStep_isSome hv hl
          exact .inl ⟨_, .divStep hr hp hs⟩
    · by_cases hframe : ∃ i rest, decodeCmd s.cfg s.cmdIn = .command i rest
      · obtain ⟨i, rest, hd⟩ := hframe
        obtain ⟨r, hi, -⟩ | ⟨a, b, hs⟩ := command_cases ((instr_wf_iff s.cfg i).2 (decodeCmd_wf hd))
        · exact .inl ⟨_, .answer hr (hready r ((offered_idle hp hd).trans hi)) hp hd hi⟩
        · exact .inl ⟨_, .start hr hp hd hs⟩
      · exact .inl ⟨_, .noFrame hr hp fun i rest hd => hframe ⟨i, rest, hd⟩⟩

theorem step_eq_next_iff {s t : State} : step s = .next t ↔ Transition s t := by
  refine ⟨fun h => ?_, Transition.step_eq⟩
  obtain ⟨t', ht⟩ | ⟨hp, hr, hl, hv⟩ := step_cases s
  · have ht' := ht.step_eq
    rw [h] at ht'
    cases ht'
    exact ht
  · rw [step_undefinedDivisor hp hr hl hv] at h
    cases h

/-- Settles O40: the ISSUE of the command fetched; for a host that is not ready the wait is `Transition.slow`. -/
theorem stepIssuesDecodedCommand : Obligations.StepIssuesDecodedCommand := by
  intro s i rest hr hp hd
  refine ⟨(instr_wf_iff s.cfg i).2 (decodeCmd_wf hd), fun h => ?_, fun hslow ho => ?_⟩
  · exact step_issue hr (not_waitsForHost h) hp (fetch_eq_some.2 ⟨rest, hd, rfl⟩)
  · obtain ⟨r, ho⟩ := Option.ne_none_iff_exists'.1 ho
    exact (Transition.slow hr hslow ho).step_eq

/-- Settles O42: ISSUE asks for `PH = IDLE` first, and both levels of the division ask for a valid generator first. -/
theorem undefinedCasesStopByName : Obligations.UndefinedCasesStopByName := by
  refine ⟨fun s i hp => ?_, fun w g hv => ⟨divStep_invalid (.inl hv), by simp [polyDivide, hv]⟩,
    fun s hp hr hl hv => step_undefinedDivisor hp hr hl hv⟩
  rw [exec_eq_issue, issue, hp]

/-- Settles O43: this is `Transition.noFrame`. -/
theorem idleInstanceWaits : Obligations.IdleInstanceWaits :=
  fun _ hp hr hd => (Transition.noFrame hr hp hd).step_eq

end Sys2Proof.Machine
end

section
/-! PROOFS. The invariants (R21, R25, R35, R81, R142): each holds at reset and is kept by every kind of step. What a step adds to the
responses handed over is the response of ISSUE or of COMPLETE, so both are shown to be of the form of R81. -/

namespace Sys2Proof.Machine

/-! ## The responses formed are of the form of R81 -/

theorem canonical_error (c : Config) (e : CrcError) : (Response.error e).Canonical c :=
  ⟨fun _ => ⟨rfl, rfl⟩, fun _ => rfl, Nat.zero_le _⟩

theorem canonical_okValid (c : Config) (v : Bool) : (Response.okValid v).Canonical c :=
  ⟨fun h => absurd rfl h, fun _ => rfl, Nat.zero_le _⟩

theorem canonical_okBits {c : Config} {r : BitStr} (hl : r.length ≤ 2 * c.lmax - 1) : (Response.okBits r).Canonical c :=
  ⟨fun h => absurd rfl h, nofun, hl⟩

/-- The operands of a decoded command are at most `LMAX` long (R5). -/
theorem lengths_le_lmax {c : Config} {beats rest : List Beat} {i : Instr} (hd : decodeCmd c beats = .command i rest) :
    i.rA.length ≤ c.lmax ∧ i.rB.length ≤ c.lmax := by
  obtain ⟨hA, hB⟩ := decodeCmd_wf hd
  exact ⟨((symStr_wf_iff c _).1 hA).1, ((symStr_wf_iff c _).1 hB).1⟩

/-- ISSUE answers with an error or, for an `XOR`, with no more bits than an operand has. -/
theorem canonical_issueResponse {c : Config} {beats rest : List Beat} {i : Instr} {r : Response}
    (hd : decodeCmd c beats = .command i rest) (hi : issueResponse c i = some r) : r.Canonical c := by
  cases hx : isBits i.rA && isBits i.rB with
  | false =>
    rw [issueResponse_nonbits hx] at hi
    split_ifs at hi
    cases hi
    exact canonical_error c _
  | true =>
    obtain ⟨a, b, ha, hb⟩ := exists_bits hx
    rw [issueResponse_bits ha hb] at hi
    split_ifs at hi
    · cases hi
      have hlen := bits?_length ha
      obtain ⟨hA, -⟩ := lengths_le_lmax hd
      exact canonical_okBits (by rw [length_xorBits]; omega)
    · cases hi
      exact canonical_error c _

/-- COMPLETE answers within the bounds of the registers (R80, R171). -/
theorem canonical_completionResponse {s : State} (h : s.RunInv) (hl : s.w.length < s.g.length) :
    (completionResponse s).Canonical s.cfg := by
  obtain ⟨hv, hg, hw, henc⟩ := h
  rw [completionResponse]
  cases ho : s.opr with
  | div => exact canonical_okBits hw
  | ver => exact canonical_okValid _ _
  | enc =>
    obtain ⟨hm, -, -⟩ := henc ho
    obtain ⟨h2, -⟩ := (validGen_iff s.g).1 hv
    exact canonical_okBits (by rw [List.length_append, normBits_length (by omega)]; omega)

/-! ## The registers of a command in flight -/

/-- The ISSUE of a decoded command loads registers within their bounds (R25, R33). -/
theorem runInv_started {s : State} {i : Instr} {rest : List Beat} {a b : BitStr} (hd : decodeCmd s.cfg s.cmdIn = .command i rest)
    (hs : StartsOn i a b) : (started (s.withPort rest) i.op a b).RunInv := by
  obtain ⟨hA, hB⟩ := lengths_le_lmax hd
  have ha := bits?_length hs.bitsA
  have hb := bits?_length hs.bitsB
  obtain ⟨h2, -⟩ := (validGen_iff b).1 hs.valid
  refine ⟨hs.valid, hb ▸ hB, ?_, fun henc => ?_⟩
  · change (dividend i.op a b).length ≤ 2 * s.cfg.lmax - 1
    cases i.op with
    | enc => rw [dividend, pad_length]; omega
    | xor | div | ver => rw [dividend]; omega
  · have ho : i.op = .enc := (oprOf_eq_enc_iff _).1 henc
    simp only [started, ho, if_pos, dividend, pad_length]
    exact ⟨ha ▸ hA, Nat.le_add_left .., le_rfl⟩

/-- DIVSTEP takes one bit from `W` and leaves at least a checksum's width there (R110). -/
theorem runInv_divStep {s : State} {w' : BitStr} (h : s.RunInv) (hs : divStep s.w s.g = some w') : ({ s with w := w' } : State).RunInv := by
  obtain ⟨hv, hg, hw, henc⟩ := h
  obtain ⟨-, hl, -⟩ := divStep_some hs
  have hlen := divStep_length hs
  refine ⟨hv, hg, by simp only; omega, fun ho => ?_⟩
  obtain ⟨hm, -, hmax⟩ := henc ho
  exact ⟨hm, by simp only; omega, by simp only; omega⟩

/-! ## The partly sent frame -/

theorem partInv_of_nil {s : State} (h : s.rspPart = []) : s.PartInv := fun hne => absurd h hne

/-- Where no response is offered, none is partly sent. -/
theorem State.PartInv.nil_of_offered {s : State} (h : s.PartInv) (ho : offered s = none) : s.rspPart = [] := by
  by_contra hne
  obtain ⟨r, hr, -⟩ := h hne
  rw [ho] at hr
  cases hr

/-! ## The obligations -/

theorem inv_resetWith {c : Config} (hc : c.Wf) : (State.resetWith c).Inv :=
  ⟨hc, nofun, nofun, partInv_of_nil rfl⟩

/-- Settles O50: nothing is in flight, nothing handed over and nothing partly sent. -/
theorem invariantAtReset : Obligations.InvariantAtReset :=
  ⟨inv_resetWith (by decide), fun _ hc => ⟨inv_resetWith hc, rfl⟩⟩

/-- A response of the form of R81 may be handed over by a step that ends with the phase idle. -/
theorem inv_of_handOver {s t : State} {r : Response} (h : s.Inv) (hr : r.Canonical s.cfg) (hcfg : t.cfg = s.cfg) (hp : t.ph = .idle)
    (ht : t.rspTaken = s.rspTaken ++ [r]) (hpart : t.rspPart = []) : t.Inv := by
  obtain ⟨hc, -, htaken, -⟩ := h
  refine ⟨hcfg ▸ hc, fun hrun => (nomatch hp.symm.trans hrun), fun q hq => ?_, partInv_of_nil hpart⟩
  rw [ht, List.mem_append, List.mem_singleton] at hq
  rw [hcfg]
  obtain hq | rfl := hq
  · exact htaken q hq
  · exact hr

/-- Settles O51: one case for each kind of step. A DIVSTEP and an ISSUE that starts a division are steps that offer no response, so
no frame is partly sent there. -/
theorem invariantKept : Obligations.InvariantKept := by
  intro s t h hstep
  obtain ⟨hc, hrun, htaken, hpart⟩ := id h
  cases step_eq_next_iff.1 hstep with
  | reset hr => exact ⟨hc, nofun, htaken, partInv_of_nil rfl⟩
  | slow hr hslow ho => exact h
  | noFrame hr hp hd => exact h
  | divStep hr hp hs =>
    have hnil := hpart.nil_of_offered (offered_of_divStep hp hs)
    exact ⟨hc, fun _ => runInv_divStep (hrun hp) hs, htaken, partInv_of_nil hnil⟩
  | complete hr hready hp hl => exact inv_of_handOver h (canonical_completionResponse (hrun hp) hl) rfl rfl rfl rfl
  | answer hr hready hp hd hi => exact inv_of_handOver h (canonical_issueResponse hd hi) rfl hp rfl rfl
  | start hr hp hd hs =>
    have hnil := hpart.nil_of_offered (offered_of_starts hp hd hs)
    exact ⟨hc, fun _ => runInv_started hd hs, htaken, partInv_of_nil hnil⟩

/-- Settles O52: the one stop that `step_cases` leaves needs a generator that is not valid, against the invariant. -/
theorem stepAlwaysHasNext : Obligations.StepAlwaysHasNext := by
  rintro s ⟨-, hrun, -, -⟩
  obtain ⟨t, ht⟩ | ⟨hp, -, -, hbad⟩ := step_cases s
  · exact ⟨t, ht.step_eq⟩
  · obtain ⟨hv, -⟩ := hrun hp
    rw [hv] at hbad
    cases hbad

/-- Settles O53: ISSUE loads the padded message itself, and a DIVSTEP keeps the remainder; every other step keeps the state or ends with
the phase idle. -/
theorem encRemainderKept : Obligations.EncRemainderKept := by
  intro s t h hstep
  cases step_eq_next_iff.1 hstep with
  | reset hr => exact nofun
  | slow hr hslow ho => exact h
  | noFrame hr hp hd => exact h
  | divStep hr hp hs =>
    intro _ henc
    obtain ⟨hv, hrem⟩ := h hp henc
    exact ⟨hv, (polyDivide_step hs).symm.trans hrem⟩
  | complete hr hready hp hl => exact nofun
  | answer hr hready hp hd hi => exact fun hrun => (nomatch hp.symm.trans hrun)
  | start hr hp hd hs =>
    intro _ henc
    have ho := (oprOf_eq_enc_iff _).1 henc
    exact ⟨hs.valid, by simp only [started, ho, if_pos, dividend]⟩

end Sys2Proof.Machine
end

section
/-! PROOFS. Noninterference (R7, R197, R222). `Transition.alike` is the simulation: alike states take alike steps, since no step reads
more of the state than `State.Alike` compares. -/

namespace Sys2Proof.Machine

/-! ## Registers that no rule reads before writing -/

section
variable {s t : State} (h : s.Alike t)
include h

theorem State.Alike.offered_eq : offered s = offered t := by
  obtain ⟨hcfg, hp, hport, -, -, -, -, hrun⟩ := h
  exact offered_congr hcfg hp hport hrun

/-- What RESET leaves at the port depends on the parameters, the phase and the ports. -/
theorem State.Alike.portAfterReset_eq : portAfterReset s = portAfterReset t := by
  obtain ⟨hcfg, hp, hport, -, hpart, -⟩ := h
  rw [portAfterReset, portAfterReset, hcfg, hp, hport, hpart]

/-- COMPLETE reads of the registers what the operation in flight has written (R35). -/
theorem State.Alike.completionResponse_eq (hp : s.ph = .run) : completionResponse s = completionResponse t := by
  obtain ⟨-, -, -, -, -, -, -, hrun⟩ := h
  obtain ⟨ho, hw, hg, hm⟩ := hrun hp
  rw [completionResponse, completionResponse, ← ho, ← hw, ← hg]
  cases hopr : s.opr with
  | div | ver => rfl
  | enc => rw [hm hopr]

/-- Alike states take alike steps. -/
theorem Transition.alike {s' : State} (hs : Transition s s') : ∃ t', Transition t t' ∧ s'.Alike t' := by
  obtain ⟨hcfg, hp, hport, htaken, hpart, hready, hrst, hrun⟩ := id h
  cases hs with
  | reset hr => exact ⟨_, .reset (hrst ▸ hr), hcfg, rfl, h.portAfterReset_eq, htaken, rfl, hready, rfl, nofun⟩
  | slow hr hslow ho => exact ⟨t, .slow (hrst ▸ hr) (hready ▸ hslow) (h.offered_eq ▸ ho), h⟩
  | noFrame hr hidle hd => exact ⟨t, .noFrame (hrst ▸ hr) (hp ▸ hidle) (hcfg ▸ hport ▸ hd), h⟩
  | divStep hr hph hs =>
    obtain ⟨ho, hw, hg, hm⟩ := hrun hph
    rw [hw, hg] at hs
    exact ⟨_, .divStep (hrst ▸ hr) (hp ▸ hph) hs, hcfg, hp, hport, htaken, hpart, hready, hrst, fun _ => ⟨ho, rfl, hg, hm⟩⟩
  | complete hr hrdy hph hl =>
    obtain ⟨-, hw, hg, -⟩ := hrun hph
    exact ⟨_, .complete (hrst ▸ hr) (hready ▸ hrdy) (hp ▸ hph) (hw ▸ hg ▸ hl), hcfg, rfl, hport,
      congrArg₂ (· ++ [·]) htaken (h.completionResponse_eq hph), rfl, hready, hrst, nofun⟩
  | answer hr hrdy hidle hd hi =>
    rw [hcfg, hport] at hd
    exact ⟨_, .answer (hrst ▸ hr) (hready ▸ hrdy) (hp ▸ hidle) hd (hcfg ▸ hi), hcfg, hp, rfl,
      congrArg (· ++ [_]) htaken, rfl, hready, hrst, fun hbusy => (nomatch hidle.symm.trans hbusy)⟩
  | start hr hidle hd hs =>
    rw [hcfg, hport] at hd
    refine ⟨_, .start (hrst ▸ hr) (hp ▸ hidle) hd hs, hcfg, rfl, rfl, htaken, hpart, hready, hrst,
      fun _ => ⟨rfl, rfl, rfl, fun henc => ?_⟩⟩
    have ho := (oprOf_eq_enc_iff _).1 henc
    simp only [started, ho, if_pos]

/-- So they take alike steps or stop alike. -/
theorem State.Alike.step_cases :
    (∃ s' t', step s = .next s' ∧ step t = .next t' ∧ s'.Alike t') ∨
      (step s = .fault .undefinedDivisor ∧ step t = .fault .undefinedDivisor) := by
  obtain ⟨s', hs'⟩ | ⟨hp, hr, hl, hv⟩ := Machine.step_cases s
  · obtain ⟨t', ht', halike⟩ := hs'.alike h
    exact .inl ⟨s', t', hs'.step_eq, ht'.step_eq, halike⟩
  · obtain ⟨-, hph, -, -, -, -, hrst, hrun⟩ := h
    obtain ⟨-, hw, hg, -⟩ := hrun hp
    exact .inr ⟨step_undefinedDivisor hp hr hl hv, step_undefinedDivisor (hph ▸ hp) (hrst ▸ hr) (hw ▸ hg ▸ hl) (hg ▸ hv)⟩

end

/-- A run stops where its first step does. -/
theorem core_run_fault {s : State} {f : Fault} (n : Nat) (h : step s = .fault f) : Host.Core.run core (n + 1) s = .fault f := by
  have h' : core.step s = .fault f := h
  simp only [Host.Core.run, h']

/-- Settles O59: by induction on the number of steps, with `State.Alike.step_cases` for the first of them. -/
theorem staleRegistersUnobservable : Obligations.StaleRegistersUnobservable := by
  intro k
  induction k with
  | zero => exact fun _ _ h => h
  | succ k ih =>
    intro s t h
    obtain ⟨s', t', hs, ht, halike⟩ | ⟨hs, ht⟩ := h.step_cases
    · rw [core_run_succ k hs, core_run_succ k ht]
      exact ih s' t' halike
    · rw [core_run_fault k hs, core_run_fault k ht]
      rfl

/-! ## Several instances -/

theorem stepInstance_eq_next_iff {sys sys' : Instances} {k : Fin sys.length} :
    stepInstance sys k = .next sys' ↔ ∃ t, step sys[k] = .next t ∧ sys' = sys.set k t := by
  rw [stepInstance]
  cases step sys[k] <;> simp [eq_comm]

/-- Settles O60: a step sets its own place of the list, and setting two different places commutes. -/
theorem instancesShareNothing : Obligations.InstancesShareNothing := by
  intro sys sys' k h
  obtain ⟨t, ht, rfl⟩ := stepInstance_eq_next_iff.1 h
  refine ⟨⟨t, ht, rfl⟩, fun j hj => List.getElem?_set_ne hj.symm, fun j hj hj' sys'' hne h' => ?_⟩
  obtain ⟨u, hu, rfl⟩ := stepInstance_eq_next_iff.1 h'
  have hk : k.val < (sys.set j u).length := by rw [List.length_set]; exact k.isLt
  have hother : (sys.set k t)[j] = sys[j] := List.getElem_set_ne hne.symm hj'
  have hself : (sys.set j u)[k.val] = sys[k.val] := List.getElem_set_ne hne hk
  refine ⟨hk, (sys.set k t).set j u, stepInstance_eq_next_iff.2 ⟨u, ?_, rfl⟩, stepInstance_eq_next_iff.2 ⟨t, ?_, ?_⟩⟩
  · exact (congrArg step hother).trans hu
  · exact (congrArg step hself).trans ht
  · exact List.set_comm _ _ hne.symm

end Sys2Proof.Machine
end

section
/-! PROOFS. The registers and the ports (R25, R60, R229): what each kind of step writes, hands over and takes from the command port. -/

namespace Sys2Proof.Machine

/-! ## Which step writes which register -/

/-- Settles O48: one case for each kind of step. The registers it leaves alone are equal by definition, so only the ISSUE that starts a
division and DIVSTEP have to meet a condition; and only the former of the two can write `MSG`, for an ENC. -/
theorem registerWriters : Obligations.RegisterWriters := by
  intro s t hr hstep
  cases step_eq_next_iff.1 hstep with
  | reset hrst => rw [hr] at hrst; cases hrst
  | slow _ hslow ho => exact ⟨by simp, by simp, by simp, fun hrun hidle => (nomatch hrun.symm.trans hidle), rfl, hr, rfl, rfl⟩
  | noFrame _ hp hd => exact ⟨by simp, by simp, by simp, fun hrun => (nomatch hp.symm.trans hrun), rfl, hr, rfl, rfl⟩
  | divStep _ hp hs =>
    obtain ⟨-, hl, -⟩ := divStep_some hs
    exact ⟨by simp, by simp, fun _ => ⟨hp, .inr hl⟩, fun _ hidle => (nomatch hp.symm.trans hidle), rfl, hr, rfl, rfl⟩
  | complete _ hready hp hl => exact ⟨by simp, by simp, by simp, fun _ _ => hl, rfl, hr, rfl, rfl⟩
  | answer _ hready hp hd hi => exact ⟨by simp, by simp, by simp, fun hrun => (nomatch hp.symm.trans hrun), rfl, hr, rfl, rfl⟩
  | @start i rest a b _ hp hd hs =>
    refine ⟨fun _ => ⟨hp, rfl⟩, fun hmsg => ⟨hp, rfl, ?_⟩, fun _ => ⟨rfl, .inl hp⟩, fun _ => nofun, rfl, hr, rfl, rfl⟩
    refine (oprOf_eq_enc_iff _).2 (by_contra fun ho => hmsg ?_)
    simp only [started, if_neg ho, withPort_msg]

/-! ## The ports -/

section
variable {s t : State} (h : Transition s t)
include h

/-- A step hands over nothing, or the response offered to a host that is ready (R60 (a), R229). -/
theorem Transition.rspTaken_cases : t.rspTaken = s.rspTaken ∨
    (s.rst = false ∧ s.rspReady = true ∧ t.ph = .idle ∧ t.rspPart = [] ∧ ∃ r, offered s = some r ∧ t.rspTaken = s.rspTaken ++ [r]) := by
  cases h with
  | complete hr hready hp hl => exact .inr ⟨hr, hready, rfl, rfl, _, offered_of_short hp hl, rfl⟩
  | answer hr hready hp hd hi => exact .inr ⟨hr, hready, hp, rfl, _, (offered_idle hp hd).trans hi, rfl⟩
  | reset | slow | noFrame | divStep | start => exact .inl rfl

/-- Outside RESET a step leaves the command port alone, or takes the frame at its front, at `PH = IDLE` (R60 (a)). -/
theorem Transition.cmdIn_cases (hr : s.rst = false) :
    t.cmdIn = s.cmdIn ∨ (s.ph = .idle ∧ ∃ i, decodeCmd s.cfg s.cmdIn = .command i t.cmdIn) := by
  cases h with
  | reset hrst => rw [hr] at hrst; cases hrst
  | answer _ _ hp hd => exact .inr ⟨hp, _, hd⟩
  | start _ hp hd => exact .inr ⟨hp, _, hd⟩
  | slow | noFrame | divStep | complete => exact .inl rfl

/-- A step that offers no response does not look at the host's readiness (R229). -/
theorem Transition.setReady (hr : s.rst = false) (ho : offered s = none) (ready : Bool) :
    Transition (s.setReady ready) (t.setReady ready) := by
  cases h with
  | reset hrst => rw [hr] at hrst; cases hrst
  | slow _ _ hsome => rw [ho] at hsome; cases hsome
  | complete _ _ hp hl => rw [offered_of_short hp hl] at ho; cases ho
  | answer _ _ hp hd hi => rw [offered_idle hp hd, hi] at ho; cases ho
  | noFrame _ hp hd => exact .noFrame hr hp hd
  | divStep _ hp hs => exact .divStep (s := s.setReady ready) hr hp hs
  | start _ hp hd hs => exact .start (s := s.setReady ready) hr hp hd hs

end

/-- Settles O49: the facts above about each kind of step; a response offered waits by `Transition.slow`, and a ready host gets it by
`step_hands_over`. -/
theorem portsAreQueues : Obligations.PortsAreQueues := by
  intro s t hstep
  have h := step_eq_next_iff.1 hstep
  refine ⟨h.rspTaken_cases, h.cmdIn_cases, fun hr r ho => ⟨fun hslow => ?_, ?_⟩,
    fun hr ho ready => (h.setReady hr ho ready).step_eq⟩
  · rw [(Transition.slow hr hslow ho).step_eq] at hstep
    cases hstep
    rfl
  · obtain ⟨u, hu, htaken, -, hidle⟩ := step_hands_over (s := s.setReady true) hr rfl ((setReady_offered s true).trans ho)
    exact ⟨u, hu, hidle, htaken⟩

end Sys2Proof.Machine
end

section
/-! PROOFS. The response frame (R79 to R81, R83): the header's three fields, and the frame read back whatever beats follow it. -/

namespace Sys2Proof

theorem Status.code_lt (st : Status) : st.code < 3 := by cases st <;> decide

@[simp] theorem bitOfBeat_toNat (b : Bit) : bitOfBeat b.toNat = b := by cases b <;> rfl

/-- The two low bits of a response header are the status (R80). -/
theorem encodeRspHeader_mod_four (r : Response) : encodeRspHeader r % 4 = r.status.code := by
  have := r.status.code_lt
  unfold encodeRspHeader; omega

theorem statusOfCode_encodeRspHeader (r : Response) : Status.ofCode (encodeRspHeader r) = some r.status := by
  rw [Status.ofCode, encodeRspHeader_mod_four]
  cases r.status <;> rfl

theorem rspHeaderValid_encodeRspHeader (r : Response) : rspHeaderValid (encodeRspHeader r) = r.valid := by
  have hcode := r.status.code_lt
  have hbit : encodeRspHeader r / 4 % 2 = r.valid.toNat := by
    have := r.valid.toNat_lt
    unfold encodeRspHeader; omega
  rw [rspHeaderValid, hbit]
  cases r.valid <;> rfl

theorem rspHeaderRlen_encodeRspHeader {c : Config} {r : Response} (hl : r.rlen < 2 ^ (c.lenw + 1)) :
    rspHeaderRlen c (encodeRspHeader r) = r.rlen := by
  have hfield : encodeRspHeader r / 8 = r.rlen := by
    have := r.status.code_lt
    have := r.valid.toNat_lt
    unfold encodeRspHeader; omega
  rw [rspHeaderRlen, hfield, Nat.mod_eq_of_lt hl]

theorem encodeRspHeader_lt {c : Config} {r : Response} (hl : r.rlen < 2 ^ (c.lenw + 1)) : encodeRspHeader r < 2 ^ (c.lenw + 4) := by
  have hwidth : 2 ^ (c.lenw + 4) = 8 * 2 ^ (c.lenw + 1) := by ring
  have := r.status.code_lt
  have := r.valid.toNat_lt
  unfold encodeRspHeader; omega

/-- A host reads back the response whose frame it has received, whatever beats follow (R81). -/
theorem decodeRsp_encodeRsp {c : Config} {r : Response} (hl : r.rlen < 2 ^ (c.lenw + 1)) (rest : List Beat) :
    decodeRsp c (encodeRsp r ++ rest) = .response r rest := by
  have hlen : (r.payload.map Bool.toNat).length = r.rlen := List.length_map ..
  have hbits : (r.payload.map Bool.toNat).map bitOfBeat = r.payload := by simp [Function.comp_def]
  rw [encodeRsp, List.cons_append, decodeRsp, statusOfCode_encodeRspHeader, rspHeaderRlen_encodeRspHeader hl,
    rspHeaderValid_encodeRspHeader]
  simp only
  rw [if_pos (by rw [List.length_append, hlen]; omega), List.take_left' hlen, List.drop_left' hlen, hbits]

/-- Settles O7: the three fields of the header, and the payload's bits; the status codes stop below the reserved one. -/
theorem responseFrameRoundTrip : Obligations.ResponseFrameRoundTrip := by
  refine ⟨fun c r rest hl => ⟨decodeRsp_encodeRsp hl rest, rfl, encodeRspHeader_lt hl⟩, fun r => ?_, fun c h body hres => ?_⟩
  · have := r.status.code_lt
    rw [encodeRspHeader_mod_four]; omega
  · simp [decodeRsp, Status.ofCode, hres]

/-- Settles O54: a response of the form of R81 is short enough for `rlen`, which has a bit more than a length field (R80, R171). -/
theorem responsesFitTheFrame : Obligations.ResponsesFitTheFrame := by
  rintro s ⟨-, -, htaken, -⟩ r hr
  obtain ⟨herr, -, hlen⟩ := htaken r hr
  have hl : r.rlen < 2 ^ (s.cfg.lenw + 1) := by
    have hpos := Nat.two_pow_pos s.cfg.lenw
    have hdouble : 2 ^ (s.cfg.lenw + 1) = 2 * 2 ^ s.cfg.lenw := Nat.pow_succ'
    rw [Config.lmax] at hlen
    rw [Response.rlen]; omega
  have hread := decodeRsp_encodeRsp hl []
  rw [List.append_nil] at hread
  refine ⟨hread, encodeRspHeader_lt hl, fun hne => ?_⟩
  obtain ⟨hvalid, hempty⟩ := herr hne
  exact ⟨hvalid, by rw [Response.rlen, hempty, List.length_nil]⟩

end Sys2Proof
end

section
/-! PROOFS. The whole frames that wait at the port through RESET (R220, R224): frames are found one by one from the front, so a row of
them with the part of one behind is found but for that part. -/

namespace Sys2Proof

/-- More fuel than beats finds no more frames. -/
theorem wholeFramesFuel_eq (c : Config) : ∀ (n m : Nat) (beats : List Beat), beats.length ≤ n → beats.length ≤ m →
    wholeFramesFuel c n beats = wholeFramesFuel c m beats := by
  have hempty : ∀ n, wholeFramesFuel c n [] = [] := fun n => by cases n <;> rfl
  intro n
  induction n with
  | zero =>
    intro m beats hn _
    rw [List.length_eq_zero_iff.1 (Nat.le_zero.1 hn), hempty, hempty]
  | succ n ih =>
    intro m beats hn hm
    cases m with
    | zero => rw [List.length_eq_zero_iff.1 (Nat.le_zero.1 hm), hempty, hempty]
    | succ m =>
      rw [wholeFramesFuel, wholeFramesFuel]
      cases hd : decodeCmd c beats with
      | command i rest =>
        have hlt := decodeCmd_rest_length hd
        simp only [ih m rest (by omega) (by omega)]
      | awaitHeader => rfl
      | awaitBeats n => rfl

/-- A whole frame at the front is kept, and the rest is searched for further ones (R220). -/
theorem wholeFrames_encodeCmd_append {c : Config} {i : Instr} (hi : i.wf c = true) (rest : List Beat) :
    wholeFrames c (encodeCmd c i ++ rest) = encodeCmd c i ++ wholeFrames c rest := by
  have hlen : (encodeCmd c i ++ rest).length = i.rA.length + i.rB.length + rest.length + 1 := by
    rw [List.length_append, encodeCmd_length]; omega
  have hfront : (encodeCmd c i ++ rest).take ((encodeCmd c i ++ rest).length - rest.length) = encodeCmd c i :=
    List.take_left' (by rw [List.length_append, Nat.add_sub_cancel])
  have hfuel : wholeFramesFuel c (i.rA.length + i.rB.length + rest.length) rest = wholeFrames c rest :=
    wholeFramesFuel_eq c _ _ rest (Nat.le_add_left ..) le_rfl
  rw [wholeFrames, hlen, wholeFramesFuel, decodeCmd_encodeCmd hi]
  simp only [hfront, hfuel]

/-- Of whole frames and the part of one behind them, the whole frames are found (R220). -/
theorem wholeFrames_frames {c : Config} {is : List Instr} {cut : List Beat} (his : ∀ j ∈ is, j.wf c = true)
    (hcut : ∀ i rest, decodeCmd c cut ≠ .command i rest) : wholeFrames c (is.flatMap (encodeCmd c) ++ cut) = is.flatMap (encodeCmd c) := by
  induction is with
  | nil => exact Machine.wholeFrames_eq_nil hcut
  | cons j js ih =>
    rw [List.flatMap_cons, List.append_assoc, wholeFrames_encodeCmd_append (his j List.mem_cons_self),
      ih fun k hk => his k (List.mem_cons_of_mem j hk)]

/-- Settles O46: RESET keeps the whole frames, but for the first of them where that one is being answered. -/
theorem waitingFramesSurviveReset : Obligations.WaitingFramesSurviveReset := by
  intro s is i n hr his hi hn hport
  have hcut := decodeCmd_take_ne_command hi hn
  refine ⟨Machine.applyReset s, Machine.step_reset hr, ?_⟩
  rw [Machine.applyReset_cmdIn]
  split_ifs with h
  · obtain ⟨hp, hpart⟩ := h
    cases is with
    | nil => exact Machine.portAfterReset_cut hi hn hport
    | cons j js =>
      have hd : decodeCmd s.cfg s.cmdIn = .command j (js.flatMap (encodeCmd s.cfg) ++ (encodeCmd s.cfg i).take n) := by
        rw [hport, List.flatMap_cons, List.append_assoc, decodeCmd_encodeCmd (his j List.mem_cons_self)]
      rw [Machine.portAfterReset_dropped hp hpart hd]
      exact wholeFrames_frames (fun k hk => his k (List.mem_cons_of_mem j hk)) hcut
  · have hkept : s.ph = .run ∨ s.rspPart = [] :=
      (Machine.phase_cases s).imp_right fun hp => by_contra fun hpart => h ⟨hp, hpart⟩
    rw [Machine.portAfterReset_kept hkept, hport, wholeFrames_frames his hcut]

end Sys2Proof
end

section
/-! PROOFS. The text form of a command (R70, R71), each part of it read back whatever characters follow; and the listed frames. -/

namespace Sys2Proof

@[simp] theorem Sym.ofChar_toChar (x : Sym) : Sym.ofChar x.toChar = x := by cases x <;> decide

theorem Sym.toChar_ne_quoteChar (x : Sym) : x.toChar ≠ quoteChar := by cases x <;> decide

/-- The symbols of an operand are read up to its closing quotation mark (R71). -/
theorem untilQuote_map_toChar (r : SymStr) (cs : List Char) : untilQuote (r.map Sym.toChar ++ quoteChar :: cs) = some (r, cs) := by
  induction r with
  | nil => rfl
  | cons x r ih =>
    rw [List.map_cons, List.cons_append, untilQuote, if_neg x.toChar_ne_quoteChar, ih, Option.map_some, Sym.ofChar_toChar]

theorem SymStr.ofText_text (r : SymStr) (cs : List Char) : SymStr.ofText (SymStr.text r ++ cs) = some (r, cs) := by
  rw [SymStr.text, List.cons_append, SymStr.ofText, if_pos rfl, List.append_assoc]
  exact untilQuote_map_toChar r cs

@[simp] theorem Op.length_mnemonic (o : Op) : o.mnemonic.length = 3 := by cases o <;> rfl

@[simp] theorem Op.ofMnemonic_mnemonic (o : Op) : Op.ofMnemonic o.mnemonic = some o := by cases o <;> decide

/-- Reading a written command gives it back (R70). -/
theorem Instr.ofText_text (i : Instr) : Instr.ofText i.text = some i := by
  have hsplit : i.text = i.op.mnemonic ++ ' ' :: (SymStr.text i.rA ++ ',' :: ' ' :: (SymStr.text i.rB ++ [])) := by
    simp [Instr.text]
  rw [hsplit, Instr.ofText, List.take_left' i.op.length_mnemonic, List.drop_left' i.op.length_mnemonic]
  simp only [Op.ofMnemonic_mnemonic, SymStr.ofText_text, Option.bind_eq_bind, Option.bind_some, if_pos, Instr.mk_eta]

/-- Settles O8: the mnemonic and the two operands are read back one after the other. -/
theorem textFormRoundTrip : Obligations.TextFormRoundTrip :=
  ⟨Instr.ofText_text, fun r => by simp [SymStr.text]⟩

/-- Settles O6: by running the decoder on the four frames. -/
theorem listedFramesDecode : Obligations.ListedFramesDecode := by
  unfold Obligations.ListedFramesDecode
  decide

end Sys2Proof
end
